-- ==== Sys2Proof/Word.lean ====
section
/-! DEFINITION. The two widths of the machine: the byte a memory cell holds and the 16-bit word a register, an instruction
and a stack slot hold (R10, R13). Everything is unsigned; there is no signed quantity in the machine (R13). -/

namespace Sys2Proof

/-- A byte of memory; also the opcode, the immediate of PUSH and the id of SIGNAL (R10). -/
abbrev Byte := BitVec 8

/-- An "unsigned 16-bit value": a register, a stack slot, an instruction word (R10, R21, R80). -/
abbrev Word := BitVec 16

end Sys2Proof
end

