-- ==== Sys2Proof/Machine/Flags.lean ====
section
/-! DEFINITION. The machine's one arithmetic operation (R132). FL has no architected bit: no instruction sets or tests a
flag (R31, D27), and the carry is discarded, so there is no flag computation to define. -/

namespace Sys2Proof.Machine

/-- `(a + b) mod 2^16`, "discarding carry-out rather than trapping" (R132, D17, assumption log
14). -/
def addWrap (a b : Word) : Word := BitVec.ofNat 16 ((a.toNat + b.toNat) % 2 ^ 16)

/-- The comparison of `Pop`, `x[SP] < 2`, unsigned (R106, R132, R164). -/
abbrev belowTwo (sp : Word) : Prop := sp.toNat < 2

end Sys2Proof.Machine
end

