-- ==== Sys2Proof/Machine/Memory.lean ====
section
/-! DEFINITION. The byte store behind the bounds checker (R38, R52, R62, assumption log 22): a list of (address, byte)
pairs in one canonical form. `Memory.read` and `Memory.write` are the `mem[a]` and `mem[a] <- b` of R17, with no
check; the checked operations are in Machine/Ops.lean. -/

namespace Sys2Proof.Machine

/-- The bytes that are not what an unlisted address reads as, by strictly rising address. -/
abbrev Memory := List Host.Cell

/-- What an address with no entry reads as. DESIGN CHOICE (assumption log 3): the spec fixes no fill value (R43, D14) and
takes zero for the bytes its listings do not show (R12). Every image is a list of entries over this fill. -/
def Memory.fill : Byte := 0#8

/-- `mem[a]` (R17, R38). -/
def Memory.read : Memory → Nat → Byte
  | [], _ => Memory.fill
  | (a', b) :: m, a => if a' = a then b else Memory.read m a

/-- Put an entry in its place by address. -/
def Memory.insert (a : Nat) (b : Byte) : Memory → Memory
  | [] => [(a, b)]
  | c :: m => if a < c.1 then (a, b) :: c :: m else c :: Memory.insert a b m

/-- `mem[a] <- b` (R17, R54): the entry of `a` is replaced, and left out when `b` is what an unlisted address reads as. -/
def Memory.write (m : Memory) (a : Nat) (b : Byte) : Memory :=
  let rest := m.filter fun c => c.1 != a
  if b = Memory.fill then rest else Memory.insert a b rest

/-- The canonical form: addresses strictly rising, no entry equal to the fill, so that equal memories are equal lists. -/
abbrev Memory.wf (m : Memory) : Prop :=
  m.Pairwise (fun c d => c.1 < d.1) ∧ ∀ c ∈ m, c.2 ≠ Memory.fill

/-- Every entry is at an address that exists (R38, R66). -/
abbrev Memory.within (capacity : Nat) (m : Memory) : Prop := ∀ c ∈ m, c.1 < capacity

end Sys2Proof.Machine
end

