-- ==== Sys2Proof/Syntax.lean ====
section
/-! DEFINITION. The instruction set as syntax: the eight register identities (R21), the eight variants (R3) and the name
of each variant's opcode. The operand types are the closed types the spec gives, so that every term of `Instr` is one
of the machine's instructions and no further check of an instruction is needed. -/

namespace Sys2Proof

/-- The "exactly eight registers, no duplicate identities" (R21). The numbers of operand fields are not here: they are
a parameter (`Encoding`, R85). -/
inductive Reg where
  | a | b | c | m | sp | pc | bp | fl
  deriving DecidableEq, Repr

/-- The identities in the order the source lists them (R21). -/
def Reg.all : List Reg := [.a, .b, .c, .m, .sp, .pc, .bp, .fl]

/-- The name of an opcode: one for each row of spec/opcode_table.json (R84). -/
inductive Op where
  | nop | push | popReg | pushReg | addStack | addReg | signal | jmp
  deriving DecidableEq, Repr

/-- The opcodes in the order of R3. -/
def Op.all : List Op := [.nop, .push, .popReg, .pushReg, .addStack, .addReg, .signal, .jmp]

/-- The closed set of eight instruction variants (R3), one constructor for each row of spec/opcode_table.json. -/
inductive Instr where
  /-- NOP (R120). -/
  | nop
  /-- PUSH imm8 (R121). -/
  | push (imm8 : Byte)
  /-- POPREG r (R122). -/
  | popReg (r : Reg)
  /-- PUSHREG r (R123). -/
  | pushReg (r : Reg)
  /-- ADDSTACK (R130). -/
  | addStack
  /-- ADDREG r1, r2 (R131): `r1` is source and destination. -/
  | addReg (r1 r2 : Reg)
  /-- SIGNAL id (R140). -/
  | signal (id : Byte)
  /-- JMP r (R150). -/
  | jmp (r : Reg)
  deriving DecidableEq, Repr

/-- The opcode an instruction carries in its high byte (R81, R84). -/
def Instr.op : Instr → Op
  | .nop => .nop
  | .push _ => .push
  | .popReg _ => .popReg
  | .pushReg _ => .pushReg
  | .addStack => .addStack
  | .addReg _ _ => .addReg
  | .signal _ => .signal
  | .jmp _ => .jmp

end Sys2Proof
end

