-- ==== Sys2Proof/Machine/Registers.lean ====
section
/-! DEFINITION. The register file: eight 16-bit slots and its interface `get` and `set` (R21, R22). No register is
hardwired, read-only, hidden, banked or aliased (R23), so neither operation has a special case. -/

namespace Sys2Proof

/-- The register file `x` (R20, R21). PC and SP are ordinary slots of it (R16); FL has no architected bit (R31). -/
structure RegFile where
  a : Word
  b : Word
  c : Word
  m : Word
  sp : Word
  pc : Word
  bp : Word
  fl : Word
  deriving DecidableEq, Repr

/-- `get(register)`, which cannot fail (R22, R24). -/
def RegFile.get (x : RegFile) : Reg → Word
  | .a => x.a
  | .b => x.b
  | .c => x.c
  | .m => x.m
  | .sp => x.sp
  | .pc => x.pc
  | .bp => x.bp
  | .fl => x.fl

/-- `set(register, v)`, a "pure in-place update of the addressed slot" (R22). -/
def RegFile.set (x : RegFile) (r : Reg) (v : Word) : RegFile :=
  match r with
  | .a => { x with a := v }
  | .b => { x with b := v }
  | .c => { x with c := v }
  | .m => { x with m := v }
  | .sp => { x with sp := v }
  | .pc => { x with pc := v }
  | .bp => { x with bp := v }
  | .fl => { x with fl := v }

end Sys2Proof
end

