-- ==== Sys2Proof/Config.lean ====
section
/-! DEFINITION. The parameters the model takes (R12) as plain data, the host's signal handlers as plain data (R142, R143),
and the one free value of the model. The reference values of the parameters are in Decode.lean (`Encoding.reference`)
and Machine/Parameters.lean; State carries the parameters of its machine, so that a statement about every state is a
statement about every capacity, both byte orders and every numbering (assumption log 2). -/

namespace Sys2Proof

/-- `BYTE_ORDER` (R12, R55), left OPEN by the spec (D6, assumption log 8). -/
inductive ByteOrder where
  /-- The high byte stands at the lower address. -/
  | be
  /-- The low byte stands at the lower address. -/
  | le
  deriving DecidableEq, Repr

/-- The opcode bytes `OPC_NOP .. OPC_JMP` and the register numbers `REG_A .. REG_FL` (R12): the numbers the source
leaves out and the spec treats as named parameters (D1, D2). -/
structure Encoding where
  opcNop : Byte
  opcPush : Byte
  opcPopReg : Byte
  opcPushReg : Byte
  opcAddStack : Byte
  opcAddReg : Byte
  opcSignal : Byte
  opcJmp : Byte
  regA : BitVec 3
  regB : BitVec 3
  regC : BitVec 3
  regM : BitVec 3
  regSP : BitVec 3
  regPC : BitVec 3
  regBP : BitVec 3
  regFL : BitVec 3
  deriving DecidableEq, Repr

/-- The opcode byte of an opcode name (R84). -/
def Encoding.opcode (e : Encoding) : Op → Byte
  | .nop => e.opcNop
  | .push => e.opcPush
  | .popReg => e.opcPopReg
  | .pushReg => e.opcPushReg
  | .addStack => e.opcAddStack
  | .addReg => e.opcAddReg
  | .signal => e.opcSignal
  | .jmp => e.opcJmp

/-- `num(r)`, the number that stands for a register in an operand field (R85, R91). -/
def Encoding.num (e : Encoding) : Reg → BitVec 3
  | .a => e.regA
  | .b => e.regB
  | .c => e.regC
  | .m => e.regM
  | .sp => e.regSP
  | .pc => e.regPC
  | .bp => e.regBP
  | .fl => e.regFL

/-- What is fixed when a machine is built and never changes while it runs: `MEM_KIB`, `BYTE_ORDER`, the opcode and
register numbers (R11, R12, R18). `MEM_KIB` is restricted to `0 .. 64` (R11, D7, assumption log 9), so a larger memory
cannot be written. -/
structure Config where
  memKib : Fin 65
  byteOrder : ByteOrder
  encoding : Encoding
  deriving DecidableEq, Repr

/-- One thing a handler does to the machine (R143), or the host between two steps (R9): a register write, a byte or a
16-bit memory write, a write of `halted`, the engine's push or pop helper. R143 gives the two helpers to a handler;
that the host may call them between steps as well is the model's DESIGN CHOICE (N15 leaves it open, assumption log
24). Reads change nothing (R22, R53, R56), so they are not listed. -/
inductive HostAction where
  | setReg (r : Reg) (v : Word)
  | write (addr : Nat) (b : Byte)
  | write16 (addr : Nat) (v : Word)
  | setHalted (h : Bool)
  | push (v : Word)
  | pop
  deriving DecidableEq, Repr

/-- How a handler can break its duties (R37, R144), which the machine does not check (assumption log 17). -/
inductive Breach where
  /-- It calls `step()` on its own machine (R144 (b), U1). -/
  | reentersStep
  /-- It never returns (R144 (a), U2). -/
  | neverReturns
  /-- It changes the registry during its own invocation (R37, R143, U18). -/
  | registersHandler
  deriving DecidableEq, Repr

/-- A handler, as plain data. Its body is the host's (R142): the host either guarantees what it does, says nothing of
it, or supplies one that breaks its duties. -/
inductive Handler where
  /-- A handler the host guarantees to do exactly these things in this order (R142: "A model may narrow a particular
  handler to a function when the host guarantees it"; assumption log 18). -/
  | scripted (script : List HostAction)
  /-- A handler of which the host says nothing but its name: each call does what `Config.freeScript` draws. -/
  | free (name : Nat)
  /-- A handler that breaks a duty the spec puts on the host. -/
  | breaching (b : Breach)
  deriving DecidableEq, Repr

/-- FREE VALUE (assumption log 4): what a handler of which the host says nothing does when it is called. R142 makes a
handler a relation on core states, "of which the step takes any one related successor"; the successor is drawn by the
calls' running number `draw`, and depends on the handler's name, the machine's parameters and the core state it sees
(R145). Whatever it draws, it acts through the operations R143 gives a handler. It has no body. -/
opaque Config.freeScript (name draw : Nat) (cfg : Config) (x : RegFile) (mem : List Host.Cell) (halted : Bool) :
    List HostAction

end Sys2Proof
end

