-- ==== Sys2Proof/WellFormed.lean ====
section
/-! DEFINITION. The checks on what the types do not already rule out. A term of `Instr` needs none: its registers are the
closed enumeration of R21 and its immediates have the field's width (R82). What needs checking are the numbers the
spec leaves as parameters (R12): "eight distinct bytes, none equal to 0xF0" and "eight distinct values 0 .. 7". -/

namespace Sys2Proof

/-- The eight opcode bytes are distinct (R12, R84). -/
abbrev Encoding.opcodesDistinct (e : Encoding) : Prop := (Op.all.map e.opcode).Nodup

/-- No opcode byte is 0xF0, the source's example of an unmapped one (R12, R84, R88). -/
abbrev Encoding.leavesF0Unmapped (e : Encoding) : Prop := ∀ o ∈ Op.all, e.opcode o ≠ 0xF0#8

/-- The eight register numbers are distinct (R12, R85). -/
abbrev Encoding.registersDistinct (e : Encoding) : Prop := (Reg.all.map e.num).Nodup

/-- A numbering the source allows (R12). -/
abbrev Encoding.wf (e : Encoding) : Prop :=
  e.opcodesDistinct ∧ e.leavesF0Unmapped ∧ e.registersDistinct

end Sys2Proof
end

