-- ==== Sys2Proof/Decode.lean ====
section
/-! DEFINITION. The instruction word (R80 to R82), the decoder (R90), total on all 65536 words and rejecting by name, and
the canonical encoder (R91). Both take the numbering as an argument; `Encoding.reference` is the one of R84 and R85,
which spec/opcode_table.json prints. -/

namespace Sys2Proof

/-- The reference numbers of R84 (D1) and R85 (D2): the spec's own choice, PRESUMED of no real JellyVM (assumption
log 1). -/
def Encoding.reference : Encoding where
  opcNop := 0x00
  opcPush := 0x01
  opcPopReg := 0x02
  opcPushReg := 0x03
  opcAddStack := 0x04
  opcAddReg := 0x05
  opcSignal := 0x06
  opcJmp := 0x07
  regA := 0
  regB := 1
  regC := 2
  regM := 3
  regSP := 4
  regPC := 5
  regBP := 6
  regFL := 7

/-- `op = w[15:8]`, "the high byte carries the opcode" (R81). -/
def opcodeByte (w : Word) : Byte := w.extractLsb' 8 8

/-- `lo = w[7:0]`, the operand byte (R81). -/
def operandByte (w : Word) : Byte := w.extractLsb' 0 8

/-- `lo[7:4]`, the field of ADDREG's `r1` (R82, D3). -/
def highNibble (lo : Byte) : BitVec 4 := lo.extractLsb' 4 4

/-- `lo[3:0]`, the field of ADDREG's `r2` (R82, D3). -/
def lowNibble (lo : Byte) : BitVec 4 := lo.extractLsb' 0 4

/-- The opcode a high byte selects, if any: the tests of R90, whose order does not matter. -/
def Encoding.opAt (e : Encoding) (op : Byte) : Option Op := Op.all.find? fun o => e.opcode o == op

/-- `reg(n)`, "the identity numbered n by rule R85, defined for n <= 7" (R90): a larger number names no register and
is not masked (R89 (b), D4, assumption log 13). -/
def Encoding.regAt (e : Encoding) (n : Nat) : Option Reg :=
  if n ≤ 7 then Reg.all.find? fun r => e.num r == BitVec.ofNat 3 n else none

/-- The decoder's one error (R90, R163): it carries the fetched word (R161). -/
inductive DecodeError where
  | invalidOpcode (w : Word)
  deriving DecidableEq, Repr

/-- The end of form R and form RR decoding: the instruction if every register field named a register, else
InvalidOpcode (R89 (b)). -/
def orInvalid (w : Word) : Option Instr → Except DecodeError Instr
  | some i => .ok i
  | none => .error (.invalidOpcode w)

/-- `Decode(w)` (R90). The low byte of the form N instructions is ignored (R89 (a), D5, assumption log 13). -/
def decode (e : Encoding) (w : Word) : Except DecodeError Instr :=
  match e.opAt (opcodeByte w) with
  | some .nop => .ok .nop
  | some .push => .ok (.push (operandByte w))
  | some .popReg => orInvalid w ((e.regAt (operandByte w).toNat).map .popReg)
  | some .pushReg => orInvalid w ((e.regAt (operandByte w).toNat).map .pushReg)
  | some .addStack => .ok .addStack
  | some .addReg =>
    orInvalid w ((e.regAt (highNibble (operandByte w)).toNat).bind fun r1 =>
      (e.regAt (lowNibble (operandByte w)).toNat).map fun r2 => .addReg r1 r2)
  | some .signal => .ok (.signal (operandByte w))
  | some .jmp => orInvalid w ((e.regAt (operandByte w).toNat).map .jmp)
  | none => .error (.invalidOpcode w)

/-- The operand byte of the canonical encoding: the forms of R82, ignored bits zero (R91). -/
def encodeOperand (e : Encoding) : Instr → Byte
  | .nop => 0#8
  | .push imm8 => imm8
  | .popReg r => (e.num r).setWidth 8
  | .pushReg r => (e.num r).setWidth 8
  | .addStack => 0#8
  | .addReg r1 r2 => ((e.num r1).setWidth 4 : BitVec 4) ++ ((e.num r2).setWidth 4 : BitVec 4)
  | .signal id => id
  | .jmp r => (e.num r).setWidth 8

/-- The canonical encoding (R91): opcode byte high, operand byte low. -/
def encode (e : Encoding) (i : Instr) : Word := e.opcode i.op ++ encodeOperand e i

/-- The instruction the decoder reads from a word numbered as spec/opcode_table.json numbers it: one 16-bit word, bit 0
least significant, bits above `nbits` zero (R80, R81). -/
def decodeTableWord (nbits w : Nat) : Option Instr :=
  (decode Encoding.reference (BitVec.ofNat 16 (w % 2 ^ nbits))).toOption

end Sys2Proof
end

