-- ==== Sys2Proof/Machine/Parameters.lean ====
section
/-! DEFINITION. The capacity a configuration gives the memory (R11) and the reference values of the parameters (R12). -/

namespace Sys2Proof

/-- `CAPACITY = 1024 * MEM_KIB` bytes (R11; conflict C1: one KiB is 1024 bytes; assumption log 9). -/
def Config.capacity (c : Config) : Nat := 1024 * c.memKib.val

/-- The reference configuration (R12): 8 KiB, the source's default; `BE`, the spec's reference value of an OPEN
parameter (D6); the numbers of R84 and R85 (D1, D2). -/
def Config.reference : Config where
  memKib := 8
  byteOrder := .be
  encoding := Encoding.reference

/-- `RESET_PC`, reference value 0x0000 (R12, R43, D15, assumption log 7). -/
def Config.resetPc : Word := 0x0000

/-- The registers after reset for an entry point: SP = 0 is the source's; A, B, C, M, BP, FL = 0 are the spec's decision
D12 (assumption log 7); PC is the parameter `RESET_PC` (R43, R190). -/
def RegFile.atReset (resetPc : Word) : RegFile where
  a := 0
  b := 0
  c := 0
  m := 0
  sp := 0
  pc := resetPc
  bp := 0
  fl := 0

end Sys2Proof
end

