-- ==== Sys2Proof/Machine/Registry.lean ====
section
/-! DEFINITION. The Signal Handler Registry: for each of the 256 ids, no handler or one (R36). -/

namespace Sys2Proof.Machine

/-- `sig` as its entries `some h`, by strictly rising id; an id with no entry is `none` (R36). -/
abbrev Registry := List (Byte × Handler)

/-- `sig[id]` (R36, R140). -/
def Registry.lookup : Registry → Byte → Option Handler
  | [], _ => none
  | (i, h) :: t, id => if i = id then some h else Registry.lookup t id

/-- Put an entry in its place by id. -/
def Registry.insert (id : Byte) (h : Handler) : Registry → Registry
  | [] => [(id, h)]
  | e :: t => if id.toNat < e.1.toNat then (id, h) :: e :: t else e :: Registry.insert id h t

/-- Registration, `sig[id] <- some h`: "Re-registering an id overwrites the previous handler" (R37). -/
def Registry.register (g : Registry) (id : Byte) (h : Handler) : Registry :=
  Registry.insert id h (g.filter fun e => e.1 != id)

/-- The canonical form: ids strictly rising, so that equal registries are equal lists (assumption log 19). -/
abbrev Registry.wf (g : Registry) : Prop := g.Pairwise fun e f => e.1.toNat < f.1.toNat

end Sys2Proof.Machine
end

