-- ==== Sys2Proof/Machine/State.lean ====
section
/-! DEFINITION. The state of one machine, `(x, mem, halted, sig)` (R20), with three fields that are the model's own: the
parameters of the machine (`cfg`, R12), what the last `step()` answered its caller (`result`, R7) and the running
number of the free value (`draws`). INVENTORY.md lists every piece. -/

namespace Sys2Proof.Machine

/-- The four error kinds (R160), each with the value a reporting implementation attaches to it (R161, D24, assumption log
16). An error is no stop: it is what `step()` answers, and the machine can be stepped again (R165, R168, assumption log
5). -/
inductive StepError where
  /-- A memory operation failed the bounds rule (R162): the address passed to it. -/
  | outOfBoundsAccess (addr : Nat)
  /-- `Decode` rejected the fetched word (R163): that word. -/
  | invalidOpcode (w : Word)
  /-- `Pop` with SP below 2 (R164). -/
  | stackUnderflow
  /-- SIGNAL found no handler (R166): the id. -/
  | unknownSignal (id : Byte)
  deriving DecidableEq, Repr

/-- The reference number of an error kind (R161, D24): the kinds in the source's order. -/
def StepError.code : StepError → Nat
  | .outOfBoundsAccess _ => 1
  | .invalidOpcode _ => 2
  | .stackUnderflow => 3
  | .unknownSignal _ => 4

/-- What `step()` answers its caller: "success, or the first error encountered" (R7). -/
inductive StepResult where
  /-- No step was made since the machine was built. -/
  | notStepped
  | ok
  | err (e : StepError)
  deriving DecidableEq, Repr

/-- The state of one machine. -/
structure State where
  /-- The machine's parameters (R12): no state of the spec (R18), and never changed by a step. -/
  cfg : Config
  /-- The register file (R20, R21). -/
  x : RegFile
  /-- The memory (R20, R38). -/
  mem : Memory
  /-- The `halted` flag (R20, R34). -/
  halted : Bool
  /-- The Signal Handler Registry (R20, R36). -/
  sig : Registry
  /-- The answer of the last step (R7): the step interface's output, which no instruction reads (R161, assumption log 5). -/
  result : StepResult
  /-- How many free handlers' scripts have been drawn: the argument of the free value (assumption log 4). -/
  draws : Nat
  deriving DecidableEq, Repr

/-- The reasons a step has no end (assumption log 17). None of the spec's four errors is here: they are answers of a step
(`StepError`). -/
inductive Fault where
  /-- Raised by SIGNAL when the handler it invokes never returns (R144 (a), U2: "stuck inside the step, never as a finished
  step"). SAFE: the spec gives the run no further state. -/
  | handlerNeverReturns (id : Byte)
  deriving DecidableEq, Repr

/-- The reasons the model gives a run no meaning. -/
inductive Refusal where
  /-- Raised by exec for an instruction that has no meaning yet. SAFE. No arm of exec raises it in this model. -/
  | notModelled (mnemonic : String)
  /-- Raised by SIGNAL when the handler it invokes calls `step()` on its own machine, which the source calls undefined
  (R144 (b), U1). SAFE. -/
  | handlerReentersStep (id : Byte)
  /-- Raised by SIGNAL when the handler it invokes registers a handler (R37, R143, U18). SAFE. -/
  | handlerRegistersHandler (id : Byte)
  deriving DecidableEq, Repr

/-- The outcome of a step of this machine. -/
abbrev Outcome := Host.Outcome State Fault Refusal

/-- `CAPACITY` of this machine (R11, R38). -/
def State.capacity (s : State) : Nat := s.cfg.capacity

/-- The machine right after reset (R43, R190) with the reference value of every parameter (R12): the reference
configuration, `RESET_PC`, the image that is zero everywhere, an empty registry. Machine/HostPort.lean builds the
machine for any other value of the parameters. -/
def State.reset : State where
  cfg := Config.reference
  x := RegFile.atReset Config.resetPc
  mem := []
  halted := false
  sig := []
  result := .notStepped
  draws := 0

end Sys2Proof.Machine
end

