-- ==== Sys2Proof/Machine/Operands.lean ====
section
/-! DEFINITION. The operand forms (R82): a register operand is read and written through the register file's one
interface (R22, R23); an immediate is zero-extended (R15, R86). -/

namespace Sys2Proof.Machine

/-- `x[r]` (R16, R22): any of the eight registers, PC and SP among them (R23). -/
def State.getReg (s : State) (r : Reg) : Word := s.x.get r

/-- `x[r] <- v` (R16, R22). -/
def State.setReg (s : State) (r : Reg) (v : Word) : State := { s with x := s.x.set r v }

/-- `zext_16(v)`, the only extension the machine performs (R15, R86). -/
def zext16 (b : Byte) : Word := b.setWidth 16

/-- A register value presented to the memory: a natural number, so that `addr + 1` does not wrap (R58, D8,
assumption log 11). -/
def addressOf (v : Word) : Nat := v.toNat

/-- PC as the address the fetch presents (R26, R58, R61). -/
def State.pcAddr (s : State) : Nat := addressOf (s.getReg .pc)

/-- SP as the address the stack operations present (R29, R58, R61). -/
def State.spAddr (s : State) : Nat := addressOf (s.getReg .sp)

end Sys2Proof.Machine
end

