-- ==== Sys2Proof/Machine/Ops.lean ====
section
/-! DEFINITION. The named operations every step is built from: the four checked memory operations (R50 to R59), the
stack's `Push` and `Pop` (R105, R106), fetch and the advance of PC (R100), and the two ways a step ends: `Ok`, or the
error it raises (R7, R165). -/

namespace Sys2Proof.Machine

/-- How a sequence of statements ended: with a value, or cut at a failing statement. Both hold the state as mutated so far
(R17, R165). -/
inductive Ran (α : Type) where
  | ok (v : α) (s : State)
  | raised (e : StepError) (s : State)
  deriving DecidableEq, Repr

/-- The state a sequence of statements left. -/
def Ran.state {α : Type} : Ran α → State
  | .ok _ s => s
  | .raised _ s => s

/-- The statements of a pseudocode block "run in the order written" (R17), and a `raise` ends them. -/
def Ran.andThen {α β : Type} (p : Ran α) (k : α → State → Ran β) : Ran β :=
  match p with
  | .ok v s => k v s
  | .raised e s => .raised e s

/-! ## Updates of one field -/

/-- The state with the answer `q` recorded for the caller of `step()` (R7). -/
def State.answer (s : State) (q : StepResult) : State := { s with result := q }

/-- `halted <- h`, which only a handler or the host does (R34, R35). -/
def State.setHalted (s : State) (h : Bool) : State := { s with halted := h }

/-- The state with another memory; the checked operations below are its only users. -/
def State.setMem (s : State) (m : Memory) : State := { s with mem := m }

/-- The state with the free value's counter at `n` (assumption log 4). -/
def State.setDraws (s : State) (n : Nat) : State := { s with draws := n }

/-! ## How a step ends -/

/-- The step answers `Ok` (R7, R100). -/
def State.returnOk (s : State) : Outcome := .next (s.answer .ok)

/-- TAKING AN ERROR: `raise E(info)` ends the step with `Err(E)` in the state as mutated so far (R165). "Nothing is
saved, no mode changes, no stack is switched, control goes nowhere inside the machine"; there is nothing to return
from, and a further step runs on the state left (R168), so the error is a next state. -/
def State.raise (s : State) (e : StepError) : Outcome := .next (s.answer (.err e))

/-- The end of an instruction's statements (R100, phases 4 and 5). -/
def Ran.finish : Ran Unit → Outcome
  | .ok _ s => s.returnOk
  | .raised e s => s.raise e

/-! ## Memory -/

/-- A byte access at `addr` is in bounds (R51). -/
abbrev State.inBounds8 (s : State) (addr : Nat) : Prop := addr < s.capacity

/-- A 16-bit access at `addr` is in bounds (R51); `addr + 1` does not wrap (R58). -/
abbrev State.inBounds16 (s : State) (addr : Nat) : Prop := addr + 1 < s.capacity

/-- `v[15:8]` (R14). -/
def highByte (v : Word) : Byte := v.extractLsb' 8 8

/-- `v[7:0]` (R14). -/
def lowByte (v : Word) : Byte := v.extractLsb' 0 8

/-- The byte of `v` that stands at the lower address (R55). -/
def firstByte : ByteOrder → Word → Byte
  | .be, v => highByte v
  | .le, v => lowByte v

/-- The byte of `v` that stands at the higher address (R55). -/
def secondByte : ByteOrder → Word → Byte
  | .be, v => lowByte v
  | .le, v => highByte v

/-- The 16-bit value of two adjacent bytes, the lower address's first (R55, R56). -/
def joinBytes : ByteOrder → Byte → Byte → Word
  | .be, first, second => first ++ second
  | .le, first, second => second ++ first

/-- `read(addr)`, `MemRead(addr, 1)` (R53). -/
def memRead (addr : Nat) (s : State) : Ran Byte :=
  if s.inBounds8 addr then .ok (Memory.read s.mem addr) s else .raised (.outOfBoundsAccess addr) s

/-- `write(addr, b)`, `MemWrite(addr, 1, b)` (R54). -/
def memWrite (addr : Nat) (b : Byte) (s : State) : Ran Unit :=
  if s.inBounds8 addr then .ok () (s.setMem (Memory.write s.mem addr b))
  else .raised (.outOfBoundsAccess addr) s

/-- The 16-bit value at `addr`, with no check. -/
def State.wordAt (s : State) (addr : Nat) : Word :=
  joinBytes s.cfg.byteOrder (Memory.read s.mem addr) (Memory.read s.mem (addr + 1))

/-- The state with the two bytes of `v` stored at `addr` and `addr + 1`, with no check (R57). -/
def State.storeWord (s : State) (addr : Nat) (v : Word) : State :=
  s.setMem (Memory.write (Memory.write s.mem addr (firstByte s.cfg.byteOrder v)) (addr + 1)
    (secondByte s.cfg.byteOrder v))

/-- `read16(addr)`, `MemRead(addr, 2)` (R56): no alignment (R60). -/
def memRead16 (addr : Nat) (s : State) : Ran Word :=
  if s.inBounds16 addr then .ok (s.wordAt addr) s else .raised (.outOfBoundsAccess addr) s

/-- `write16(addr, v)`, `MemWrite(addr, 2, v)` (R57): the bounds are checked before any byte is touched (R59, C2,
assumption log 11). -/
def memWrite16 (addr : Nat) (v : Word) (s : State) : Ran Unit :=
  if s.inBounds16 addr then .ok () (s.storeWord addr v) else .raised (.outOfBoundsAccess addr) s

/-! ## The stack -/

/-- `Push(v)` (R105): write at SP, then increment SP by 2, with wrap (D11, assumption log 12). -/
def push (v : Word) (s : State) : Ran Unit :=
  (memWrite16 s.spAddr v s).andThen fun _ t =>
    .ok () (t.setReg .sp (addWrap (t.getReg .sp) 2#16))

/-- `Pop()` (R106): the underflow test, then the decrement, then the read at the new SP. -/
def pop (s : State) : Ran Word :=
  if belowTwo (s.getReg .sp) then .raised .stackUnderflow s
  else
    let t := s.setReg .sp (s.getReg .sp - 2#16)
    memRead16 t.spAddr t

/-! ## The first phases of a step -/

/-- Fetch: `w <- MemRead(x[PC], 2)` (R100, phase 1). -/
def fetch (s : State) : Ran Word := memRead16 s.pcAddr s

/-- Advance: `x[PC] <- (x[PC] + 2) mod 2^16` (R27, R100, phase 2; D10, assumption log 12). -/
def advance (s : State) : State := s.setReg .pc (addWrap (s.getReg .pc) 2#16)

/-- Decode (R100, phase 3), with the machine's numbering. -/
def decodeFetched (s : State) (w : Word) : Except StepError Instr :=
  match decode s.cfg.encoding w with
  | .ok i => .ok i
  | .error (.invalidOpcode w') => .error (.invalidOpcode w')

end Sys2Proof.Machine
end

