-- ==== Sys2Proof/Machine/Arithmetic.lean ====
section
/-! DEFINITION. ADDSTACK and ADDREG (R130, R131). No flag is written and the carry is discarded (R31, R132). -/

namespace Sys2Proof.Machine

/-- ADDSTACK: pop `a`, pop `b`, push `(b + a) mod 2^16` (R130, D28). A failing second pop leaves "the first pop's effect on
SP applied". -/
def execAddStack (s : State) : Outcome :=
  ((pop s).andThen fun a t => (pop t).andThen fun b u => push (addWrap b a) u).finish

/-- ADDREG r1, r2: "`r1 := r1 + r2`, wrapping modulo 2^16"; both are read before the write (R131). -/
def execAddReg (r1 r2 : Reg) (s : State) : Outcome :=
  (s.setReg r1 (addWrap (s.getReg r1) (s.getReg r2))).returnOk

end Sys2Proof.Machine
end

