-- ==== Sys2Proof/Machine/Control.lean ====
section
/-! DEFINITION. JMP (R150). The other control transfers are POPREG PC, ADDREG PC and a handler's write of PC (R151 to R154);
there are no delay slots (R155). -/

namespace Sys2Proof.Machine

/-- JMP r: "set PC to the value held in register `r`", not checked (R150, D18, assumption log
15). -/
def execJmp (r : Reg) (s : State) : Outcome := (s.setReg .pc (s.getReg r)).returnOk

end Sys2Proof.Machine
end

