-- ==== Sys2Proof/Machine/HostPort.lean ====
section
/-! DEFINITION. What the host does to the machine through the interfaces of R9: building it (R190), acting on it between two
steps (R9, D31, assumption log 20), registering handlers (R37), and acting from inside a handler (R143). -/

namespace Sys2Proof.Machine

/-- One action of the host or of a handler, through "the same register interface and the same bounds-checked memory
operations as everyone else" (R143). An error goes to whoever asked for it, never to a step (R162). -/
def hostAct : HostAction → State → Ran Unit
  | .setReg r v, s => .ok () (s.setReg r v)
  | .write addr b, s => memWrite addr b s
  | .write16 addr v, s => memWrite16 addr v s
  | .setHalted h, s => .ok () (s.setHalted h)
  | .push v, s => push v s
  | .pop, s => (pop s).andThen fun _ t => .ok () t

/-- A handler's actions one after the other; a failing one applies what it applied before it failed, "and the handler must
deal with it" (R143). -/
def runScript : List HostAction → State → State
  | [], s => s
  | a :: rest, s => runScript rest (hostAct a s).state

/-- A call of the handler `h` that SIGNAL found for `id` (R140, R142): it has "no return value", so once it returns
the step answers `Ok`. A handler the host says nothing of does what the free value draws (assumption log 4); one that
breaks its duties ends the run by name (R144). -/
def callHandler (id : Byte) (h : Handler) (s : State) : Outcome :=
  match h with
  | .scripted script => (runScript script s).returnOk
  | .free name =>
    (runScript (Config.freeScript name s.draws s.cfg s.x s.mem s.halted)
      (s.setDraws (s.draws + 1))).returnOk
  | .breaching .reentersStep => .refused (.handlerReentersStep id)
  | .breaching .neverReturns => .fault (.handlerNeverReturns id)
  | .breaching .registersHandler => .refused (.handlerRegistersHandler id)

/-- What the host can ask between two steps (R9): an action, or a registration (R37). The surfaces of R9 list no push
and no pop; that `act` admits them is the model's DESIGN CHOICE (N15 leaves it open, assumption log 24). The host
reads through `State.getReg`, `memRead`, `memRead16` and the field `halted`. -/
inductive HostRequest where
  | act (a : HostAction)
  | register (id : Byte) (h : Handler)
  deriving DecidableEq, Repr

/-- The host's request between two steps; its error, if any, goes to the host. A push or a pop among its actions is the
model's DESIGN CHOICE (N15, assumption log 24). -/
def hostRequest : HostRequest → State → Ran Unit
  | .act a, s => hostAct a s
  | .register id h, s => .ok () { s with sig := Registry.register s.sig id h }

/-- The memory that holds `image a` at every address below `capacity` (R38, R43). -/
def Memory.ofImage (capacity : Nat) (image : Nat → Byte) : Memory :=
  (List.range capacity).filterMap fun a => if image a = Memory.fill then none else some (a, image a)

/-- Reset is "the construction of the machine" (R190), for any value of the parameters of R12: the configuration,
`RESET_PC`, `IMAGE` and `HANDLERS`. -/
def State.construct (c : Config) (resetPc : Word) (image : Nat → Byte) (handlers : Registry) : State where
  cfg := c
  x := RegFile.atReset resetPc
  mem := Memory.ofImage c.capacity image
  halted := false
  sig := handlers
  result := .notStepped
  draws := 0

end Sys2Proof.Machine
end

