-- ==== Sys2Proof/Machine/Signal.lean ====
section
/-! DEFINITION. SIGNAL, the machine's only system instruction (R140, R147). -/

namespace Sys2Proof.Machine

/-- SIGNAL id: look `id` up in the registry; UnknownSignal if it is absent, else call the handler (R140). The engine itself
writes nothing and saves nothing. -/
def execSignal (id : Byte) (s : State) : Outcome :=
  match Registry.lookup s.sig id with
  | none => s.raise (.unknownSignal id)
  | some h => callHandler id h s

end Sys2Proof.Machine
end

