-- ==== Sys2Proof/Machine/StackMoves.lean ====
section
/-! DEFINITION. NOP and the stack moves PUSH, POPREG, PUSHREG (R120 to R123). Each runs with PC already advanced (R102). -/

namespace Sys2Proof.Machine

/-- NOP: "no effect" (R120). -/
def execNop (s : State) : Outcome := s.returnOk

/-- PUSH imm8: "push the zero-extended 16-bit value" (R121). -/
def execPush (imm8 : Byte) (s : State) : Outcome := (push (zext16 imm8) s).finish

/-- POPREG r: "pop a 16-bit value and store it into register `r`" (R122): the write of `r` comes last, so POPREG SP leaves
the popped value in SP and POPREG PC overrides the advance. -/
def execPopReg (r : Reg) (s : State) : Outcome :=
  ((pop s).andThen fun v t => .ok () (t.setReg r v)).finish

/-- PUSHREG r: "push the current value of register `r`", read before the push changes SP (R123). -/
def execPushReg (r : Reg) (s : State) : Outcome := (push (s.getReg r) s).finish

end Sys2Proof.Machine
end

