-- ==== Sys2Proof/Machine/Dispatch.lean ====
section
/-! DEFINITION. `Execute(i)`, the dispatch of R104: one arm for each variant, no ninth. -/

namespace Sys2Proof.Machine

def exec (i : Instr) (s : State) : Host.Outcome State Fault Refusal :=
  match i with
  | .nop => Sys2Proof.Machine.execNop s
  | .push imm8 => Sys2Proof.Machine.execPush imm8 s
  | .popReg r => Sys2Proof.Machine.execPopReg r s
  | .pushReg r => Sys2Proof.Machine.execPushReg r s
  | .addStack => Sys2Proof.Machine.execAddStack s
  | .addReg r1 r2 => Sys2Proof.Machine.execAddReg r1 r2 s
  | .signal id => Sys2Proof.Machine.execSignal id s
  | .jmp r => Sys2Proof.Machine.execJmp r s

end Sys2Proof.Machine
end

