-- ==== Sys2Proof/Machine/Step.lean ====
section
/-! DEFINITION. `step()`: fetch, advance, decode, execute (R100), and where the host's question puts an instruction word. -/

namespace Sys2Proof.Machine

/-- `Step()` (R100). The advance comes after the fetch and before the decode: a failed fetch changes nothing (R101), a
failed decode leaves PC advanced (R103), and every instruction runs with PC at the following one (R102). `halted` is
not read (R35). -/
def step (s : State) : Host.Outcome State Fault Refusal :=
  match fetch s with
  | .raised e t => t.raise e
  | .ok w t =>
    match decodeFetched (advance t) w with
    | .error e => (advance t).raise e
    | .ok i => exec i (advance t)

/-- `s` with the word `w` where `step` fetches next, and the numbering of spec/opcode_table.json (which `w` is written
in). Only where no word can be fetched at PC does it also move PC to 0, and only where memory is too small for a word
does it give the machine the reference capacity. -/
def State.withFetchWord (s : State) (nbits w : Nat) : State :=
  let v : Word := BitVec.ofNat 16 (w % 2 ^ nbits)
  let t : State := { s with cfg := { s.cfg with encoding := Encoding.reference } }
  if t.inBounds16 t.pcAddr then t.storeWord t.pcAddr v
  else if t.inBounds16 0 then (t.setReg .pc 0#16).storeWord 0 v
  else (({ t with cfg := { t.cfg with memKib := Config.reference.memKib } } : State).setReg .pc 0#16).storeWord 0 v

end Sys2Proof.Machine
end

