-- ==== Sys2Proof/Machine/Driver.lean ====
section
/-! DEFINITION. The reference driver (R110, D23, assumption log 21), which is outside the core. -/

namespace Sys2Proof.Machine

/-- How a run under the reference driver stands after a number of steps. -/
inductive RunEnd where
  /-- The last step answered `Ok` and left `halted` set; the state it left. -/
  | halted (s : State)
  /-- The last step answered `Err(e)`; the state it left. -/
  | faulted (e : StepError) (s : State)
  /-- The driver would step again from here: the number of steps looked at is used up. -/
  | running (s : State)
  /-- A handler never returned (R144 (a)). -/
  | stuck (f : Fault)
  /-- The run has no meaning (R144 (b), R37). -/
  | noMeaning (r : Refusal)
  deriving DecidableEq, Repr

/-- What the reference driver does with the answer of one step (R110): stop on `Err`, else stop if `halted`, else go on.
`none` is going on. -/
def driverTest (s : State) : Option RunEnd :=
  match s.result with
  | .err e => some (.faulted e s)
  | _ => if s.halted then some (.halted s) else none

/-- `Run()` (R110), at most `n` steps of it. `halted` is tested after each successful step and not before the first. -/
def driverRun : Nat → State → RunEnd
  | 0, s => .running s
  | n + 1, s =>
    match step s with
    | .next t => (driverTest t).getD (driverRun n t)
    | .fault f => .stuck f
    | .refused r => .noMeaning r

end Sys2Proof.Machine
end

