-- ==== Sys2Proof/Safety.lean ====
section
/-! DEFINITION. The terms claims are stated in: the invariant of a state, what a step keeps, which registers an instruction
names and writes and where it stores, and what counts as a safe run. -/

namespace Sys2Proof.Machine

/-- The invariant of the model's data. The spec states invariants of the containers only (R44): the memory is canonical and
holds no byte past the end, the registry is canonical, the numbering is one R12 allows. Nothing is said of the values
of PC and SP (assumption log 23). -/
abbrev State.Inv (s : State) : Prop :=
  Memory.wf s.mem ∧ Memory.within s.capacity s.mem ∧ Registry.wf s.sig ∧ s.cfg.encoding.wf

/-! ## Frames -/

/-- Every register outside `rs` holds in `t` what it holds in `s`. -/
def State.KeepsRegsBut (rs : List Reg) (s t : State) : Prop := ∀ r, r ∉ rs → t.getReg r = s.getReg r

/-- Every byte outside the `len` bytes from `addr` reads in `t` as in `s`. -/
def State.KeepsBytesBut (addr len : Nat) (s t : State) : Prop :=
  ∀ a, (a < addr ∨ addr + len ≤ a) → Memory.read t.mem a = Memory.read s.mem a

/-- Every byte reads in `t` as in `s`. -/
def State.KeepsBytes (s t : State) : Prop := ∀ a, Memory.read t.mem a = Memory.read s.mem a

/-- The parameters, `halted`, the registry and the free value's counter are in `t` as in `s`. -/
def State.KeepsControl (s t : State) : Prop :=
  t.cfg = s.cfg ∧ t.halted = s.halted ∧ t.sig = s.sig ∧ t.draws = s.draws

/-! ## Fetching -/

/-- `s` fetches a word that decodes to `i` (R100, phases 1 and 3). -/
def State.Fetches (s : State) (i : Instr) : Prop :=
  s.pcAddr + 1 < s.capacity ∧ decode s.cfg.encoding (s.wordAt s.pcAddr) = .ok i

/-! ## The same machine under the other byte order -/

/-- The other value of `BYTE_ORDER` (R55). -/
def otherOrder (o : ByteOrder) : ByteOrder :=
  match o with
  | .be => .le
  | .le => .be

/-- The other byte of the word at an even address that holds the byte `a`. -/
def pairAddr (a : Nat) : Nat := if a % 2 = 0 then a + 1 else a - 1

/-- `t` is `s` under the other byte order, with the same words at even addresses: its image is `s`'s "given as 16-bit words"
(R65). -/
def State.MirroredBy (s t : State) : Prop :=
  t.cfg = { s.cfg with byteOrder := otherOrder s.cfg.byteOrder } ∧ t.x = s.x ∧
  (∀ a, Memory.read t.mem a = Memory.read s.mem (pairAddr a)) ∧
  t.halted = s.halted ∧ t.sig = s.sig ∧ t.result = s.result ∧ t.draws = s.draws

/-! ## Safe runs -/

/-- `n` steps in a row, each of which answers `Ok` (R7), lead from `s` to `t`. -/
def StepsOk : Nat → State → State → Prop
  | 0, s, t => s = t
  | n + 1, s, t => ∃ u, step s = .next u ∧ u.result = .ok ∧ StepsOk n u t

/-- A safe run of `n` steps: every one of them answers `Ok`. -/
def SafeFor (n : Nat) (s : State) : Prop := ∃ t, StepsOk n s t

end Sys2Proof.Machine

namespace Sys2Proof

open Sys2Proof.Machine

/-! ## What an instruction names, writes and stores -/

/-- The registers an instruction's operand fields name (R82). -/
def Instr.named : Instr → List Reg
  | .popReg r => [r]
  | .pushReg r => [r]
  | .addReg r1 r2 => [r1, r2]
  | .jmp r => [r]
  | .nop | .push _ | .addStack | .signal _ => []

/-- The register an instruction writes because it is named or meant as its destination: the operand of POPREG, the first of
ADDREG, PC for JMP (R122, R131, R150). The stack pointer that a push or a pop moves is none. -/
def Instr.dest : Instr → Option Reg
  | .popReg r => some r
  | .addReg r1 _ => some r1
  | .jmp _ => some .pc
  | .nop | .push _ | .pushReg _ | .addStack | .signal _ => none

/-- The registers an instruction's own statements write (the table of R23): SIGNAL's engine writes none. -/
def Instr.written : Instr → List Reg
  | .push _ | .pushReg _ | .addStack => [.sp]
  | .popReg r => [.sp, r]
  | .addReg r1 _ => [r1]
  | .jmp _ => [.pc]
  | .nop | .signal _ => []

/-- Where an instruction stores a word when it stores one (the writes of R61): `Push` stores at SP, and ADDSTACK's `Push`
comes after two pops. -/
def Instr.storesAt (i : Instr) (s : State) : Option Nat :=
  match i with
  | .push _ | .pushReg _ => some s.spAddr
  | .addStack => some (addressOf (s.getReg .sp - 4#16))
  | .nop | .popReg _ | .addReg _ _ | .signal _ | .jmp _ => none

/-- The instruction is a SIGNAL that finds a handler, so that the handler, not the engine, says what happens (R140). -/
def Instr.CallsHandler (i : Instr) (s : State) : Prop :=
  ∃ id h, i = .signal id ∧ Registry.lookup s.sig id = some h

end Sys2Proof
end

