-- ==== Sys2Proof/Certificates/Slice0/Obligations.lean ====
section
/-! DEFINITION. The statements for the provers. Each docstring names the rule of spec/ the statement comes from; exec is
always given the state after the advance of PC (R102), step the state before the fetch. -/

open Sys2Proof Sys2Proof.Machine

/-! ## Encoding and decoding -/

/-- R91: `Decode(Encode(i)) = i` for every variant, with every operand, under every numbering R12 allows. -/
def Obligations.EncodeThenDecodeGivesInstruction : Prop :=
  ∀ (e : Encoding) (i : Instr), e.wf → decode e (encode e i) = .ok i

/-- R91: `Encode(Decode(w)) = w` for every legal word, but that a form N word comes back with its low byte cleared. -/
def Obligations.DecodeThenEncodeGivesWord : Prop :=
  ∀ (e : Encoding) (w : Word) (i : Instr), e.wf → decode e w = .ok i →
    opcodeByte (encode e i) = opcodeByte w ∧
    operandByte (encode e i) = if i = .nop ∨ i = .addStack then 0#8 else operandByte w

/-- R88: a high byte that is none of the eight opcode bytes is InvalidOpcode, whatever the low byte; 0xF0 is such a
byte in every numbering; with the reference values (the spec's decision D1, assumption log 1) they are 0x08 to 0xFF;
and each of the eight is recognised. That the error carries the word is the spec's decision D24 (assumption log 16). -/
def Obligations.HighByteOutsideTheEightIsInvalidOpcode : Prop :=
  (∀ (e : Encoding) (w : Word), (∀ o ∈ Op.all, e.opcode o ≠ opcodeByte w) →
    decode e w = .error (.invalidOpcode w)) ∧
  (∀ (e : Encoding) (w : Word), e.wf → opcodeByte w = 0xF0#8 → decode e w = .error (.invalidOpcode w)) ∧
  (∀ w : Word, 8 ≤ (opcodeByte w).toNat → decode Encoding.reference w = .error (.invalidOpcode w)) ∧
  (∀ (e : Encoding) (o : Op), e.wf → ∃ w i, opcodeByte w = e.opcode o ∧ decode e w = .ok i ∧ i.op = o)

/-- R82, R89, R90: which words are legal, by form. The nibbles and the single field must be at most 7 (D4); the low
byte of a form N word is ignored (D5); both are the spec's decisions (assumption log 13). -/
def Obligations.DecodeSucceedsExactlyOnLegalWords : Prop :=
  ∀ (e : Encoding) (w : Word), e.wf →
    ((∃ i, decode e w = .ok i) ↔
      (∃ o ∈ [Op.nop, Op.push, Op.addStack, Op.signal], e.opcode o = opcodeByte w) ∨
      (∃ o ∈ [Op.popReg, Op.pushReg, Op.jmp], e.opcode o = opcodeByte w ∧ (operandByte w).toNat ≤ 7) ∨
      (e.opcode .addReg = opcodeByte w ∧ (highNibble (operandByte w)).toNat ≤ 7 ∧
        (lowNibble (operandByte w)).toNat ≤ 7)) ∧
    ((∀ i, decode e w ≠ .ok i) → decode e w = .error (.invalidOpcode w))

/-- R84, R85 (the numbers are the spec's decisions D1 to D5, assumption log 1 and 13): one word of each row, and three
rejected ones. -/
def Obligations.WrittenOutWordsDecodeAsListed : Prop :=
  decode Encoding.reference 0b0000000011111111#16 = .ok .nop ∧
  decode Encoding.reference 0b0000000100001010#16 = .ok (.push 10) ∧
  decode Encoding.reference 0b0000001000000111#16 = .ok (.popReg .fl) ∧
  decode Encoding.reference 0b0000001100000101#16 = .ok (.pushReg .pc) ∧
  decode Encoding.reference 0b0000010010101011#16 = .ok .addStack ∧
  decode Encoding.reference 0b0000010100010010#16 = .ok (.addReg .b .c) ∧
  decode Encoding.reference 0b0000011011110000#16 = .ok (.signal 0xF0) ∧
  decode Encoding.reference 0b0000011100000001#16 = .ok (.jmp .b) ∧
  decode Encoding.reference 0b0000001000001000#16 = .error (.invalidOpcode 0x0208) ∧
  decode Encoding.reference 0b0000010110000000#16 = .error (.invalidOpcode 0x0580) ∧
  decode Encoding.reference 0b1111000000000000#16 = .error (.invalidOpcode 0xF000)

/-! ## The step -/

/-- R100, R102, R104: a step whose word decodes to `i` is `exec i` on the state with PC advanced by two and everything
else as it was. -/
def Obligations.StepRunsFetchedInstruction : Prop :=
  ∀ (s : State) (i : Instr), s.Fetches i →
    step s = exec i (advance s) ∧
    (advance s).getReg .pc = addWrap (s.getReg .pc) 2#16 ∧ s.KeepsRegsBut [.pc] (advance s) ∧
    (advance s).mem = s.mem ∧ s.KeepsControl (advance s)

/-- R101: a failed fetch answers OutOfBoundsAccess, changes no state, and the next step does the same again. -/
def Obligations.FailedFetchChangesNothingAndRepeats : Prop :=
  ∀ s : State, s.capacity ≤ s.pcAddr + 1 →
    step s = .next (s.answer (.err (.outOfBoundsAccess s.pcAddr))) ∧
    ∀ t, step s = .next t → step t = .next t

/-- R103: a failed decode leaves PC advanced by 2 and nothing else changed; the next step fetches the following word.
The wrap of the advance is the spec's decision D10 (assumption log 12), the word the error carries is D24 (assumption
log 16). -/
def Obligations.FailedDecodeAdvancesPcOnly : Prop :=
  ∀ s : State, s.pcAddr + 1 < s.capacity → (∀ i, decode s.cfg.encoding (s.wordAt s.pcAddr) ≠ .ok i) →
    ∃ t, step s = .next t ∧ t.result = .err (.invalidOpcode (s.wordAt s.pcAddr)) ∧
      t.getReg .pc = addWrap (s.getReg .pc) 2#16 ∧ s.KeepsRegsBut [.pc] t ∧ t.mem = s.mem ∧ s.KeepsControl t ∧
      fetch t = memRead16 (addressOf (addWrap (s.getReg .pc) 2#16)) t

/-- R71: a word stored where PC points is what the next fetch reads, under both byte orders. -/
def Obligations.FetchSeesLatestStore : Prop :=
  ∀ (s t : State) (v : Word), memWrite16 s.pcAddr v s = .ok () t → fetch t = .ok v t

/-- R58 (the spec's decisions D7, D8; assumption log 9 and 11): a 16-bit access at 0xFFFF fails in every machine and
touches nothing; so does a fetch with PC there. -/
def Obligations.WordAccessAtTopAddressAlwaysFails : Prop :=
  ∀ (s : State) (v : Word),
    memRead16 0xFFFF s = .raised (.outOfBoundsAccess 0xFFFF) s ∧
    memWrite16 0xFFFF v s = .raised (.outOfBoundsAccess 0xFFFF) s ∧
    (s.getReg .pc = 0xFFFF#16 → step s = .next (s.answer (.err (.outOfBoundsAccess 0xFFFF))))

/-- R27, R105: the advance of PC and the increment of SP wrap only with 64 KiB, only from 0xFFFE, and then to 0 (the
spec's decisions D10, D11; assumption log 12). -/
def Obligations.PcAndSpWrapOnlyAtTopOfFullMemory : Prop :=
  ∀ (s : State) (r : Reg), r = .pc ∨ r = .sp → addressOf (s.getReg r) + 1 < s.capacity →
    addressOf (s.getReg r) + 2 ≠ addressOf (addWrap (s.getReg r) 2#16) →
    s.cfg.memKib.val = 64 ∧ s.getReg r = 0xFFFE#16 ∧ addWrap (s.getReg r) 2#16 = 0#16

/-! ## Registers, memory, registry -/

/-- R22: `set` changes the addressed slot and no other. -/
def Obligations.RegisterSetChangesOneSlot : Prop :=
  ∀ (x : RegFile) (r r' : Reg) (v : Word), (x.set r v).get r' = if r' = r then v else x.get r'

/-- R51, R59: each memory operation succeeds exactly when its address is in bounds, and otherwise raises
OutOfBoundsAccess and changes nothing. That a failed 16-bit write leaves both bytes is the spec's decision D9
(assumption log 11), the address the error carries is D24 (assumption log 16). -/
def Obligations.MemoryOperationsFailExactlyOutOfBounds : Prop :=
  ∀ (s : State) (addr : Nat) (b : Byte) (v : Word),
    (addr < s.capacity → (∃ c, memRead addr s = .ok c s) ∧ ∃ t, memWrite addr b s = .ok () t) ∧
    (s.capacity ≤ addr → memRead addr s = .raised (.outOfBoundsAccess addr) s ∧
      memWrite addr b s = .raised (.outOfBoundsAccess addr) s) ∧
    (addr + 1 < s.capacity → (∃ w, memRead16 addr s = .ok w s) ∧ ∃ t, memWrite16 addr v s = .ok () t) ∧
    (s.capacity ≤ addr + 1 → memRead16 addr s = .raised (.outOfBoundsAccess addr) s ∧
      memWrite16 addr v s = .raised (.outOfBoundsAccess addr) s)

/-- R53, R54, R56, R57: what the four operations return and write, byte by byte, under both byte orders. -/
def Obligations.MemoryOperationsReadAndWriteBytes : Prop :=
  ∀ (s : State) (addr : Nat) (b : Byte) (v : Word),
    memRead addr s = (if addr < s.capacity then .ok (Memory.read s.mem addr) s
      else .raised (.outOfBoundsAccess addr) s) ∧
    (if addr < s.capacity then
        ∃ t, memWrite addr b s = .ok () t ∧ Memory.read t.mem addr = b ∧ s.KeepsBytesBut addr 1 t ∧
          t = s.setMem t.mem
      else memWrite addr b s = .raised (.outOfBoundsAccess addr) s) ∧
    memRead16 addr s = (if addr + 1 < s.capacity then
        .ok (if s.cfg.byteOrder = .be then Memory.read s.mem addr ++ Memory.read s.mem (addr + 1)
          else Memory.read s.mem (addr + 1) ++ Memory.read s.mem addr) s
      else .raised (.outOfBoundsAccess addr) s) ∧
    (if addr + 1 < s.capacity then
        ∃ t, memWrite16 addr v s = .ok () t ∧
          Memory.read t.mem addr = (if s.cfg.byteOrder = .be then highByte v else lowByte v) ∧
          Memory.read t.mem (addr + 1) = (if s.cfg.byteOrder = .be then lowByte v else highByte v) ∧
          s.KeepsBytesBut addr 2 t ∧ t = s.setMem t.mem
      else memWrite16 addr v s = .raised (.outOfBoundsAccess addr) s)

/-- R64: (a) the round trips, (b) the frames, (c) a failed operation changes nothing, (d) a read changes nothing. -/
def Obligations.MemoryLaws : Prop :=
  (∀ (s t : State) (a : Nat) (v : Word), memWrite16 a v s = .ok () t → memRead16 a t = .ok v t) ∧
  (∀ (s t : State) (a : Nat) (b : Byte), memWrite a b s = .ok () t → memRead a t = .ok b t) ∧
  (∀ (s t : State) (a c : Nat) (b : Byte), memWrite a b s = .ok () t → c ≠ a →
    Memory.read t.mem c = Memory.read s.mem c) ∧
  (∀ (s t : State) (a c : Nat) (v : Word), memWrite16 a v s = .ok () t → c ≠ a → c ≠ a + 1 →
    Memory.read t.mem c = Memory.read s.mem c) ∧
  (∀ (s t : State) (a : Nat) (b : Byte) (v : Word) (e : StepError),
    memWrite a b s = .raised e t ∨ memWrite16 a v s = .raised e t ∨ memRead a s = .raised e t ∨
      memRead16 a s = .raised e t → t = s) ∧
  (∀ (s t : State) (a : Nat) (b : Byte), memRead a s = .ok b t → t = s) ∧
  (∀ (s t : State) (a : Nat) (v : Word), memRead16 a s = .ok v t → t = s)

/-- R65: what is read where two 16-bit writes overlap in one byte, and a byte read of a word. -/
def Obligations.OverlappingWordWritesMixBytes : Prop :=
  ∀ (s t u : State) (a : Nat) (v w : Word), memWrite16 a v s = .ok () t → memWrite16 (a + 1) w t = .ok () u →
    memRead16 a u = .ok (match s.cfg.byteOrder with
      | .be => highByte v ++ highByte w
      | .le => lowByte w ++ lowByte v) u ∧
    memRead16 (a + 1) u = .ok w u ∧
    memRead a t = .ok (match s.cfg.byteOrder with | .be => highByte v | .le => lowByte v) t

/-- The model's canonical form (assumption log 3): two memories in it that read the same at every address are equal. -/
def Obligations.CanonicalMemoriesWithEqualBytesAreEqual : Prop :=
  ∀ m n : Memory, Memory.wf m → Memory.wf n → (∀ a, Memory.read m a = Memory.read n a) → m = n

/-- R36, R37: a registration is what the registry holds for its id afterwards, and touches no other id. -/
def Obligations.RegistryLookupAfterRegistration : Prop :=
  ∀ (g : Registry) (id id' : Byte) (h : Handler),
    Registry.lookup (Registry.register g id h) id' = if id' = id then some h else Registry.lookup g id'

/-! ## Reset -/

/-- R43, R190: every piece of state after reset. SP = 0 and the 8 KiB are the source's; the other values are the
spec's decisions (D1, D2, D6, D12, D13, D15, D16; assumption log 1, 7, 8, 10), and the zero image is assumption log 3. -/
def Obligations.ResetValues : Prop :=
  (∀ r, State.reset.getReg r = 0#16) ∧ State.reset.halted = false ∧ State.reset.sig = [] ∧
  State.reset.capacity = 8192 ∧ State.reset.cfg.byteOrder = .be ∧
  State.reset.cfg.encoding = Encoding.reference ∧ ∀ a, Memory.read State.reset.mem a = 0#8

/-- R43, R190: a machine built from any value of the parameters holds the image, has SP = 0, PC = `RESET_PC`, the
other registers 0, `halted` clear and the given registry (the spec's decisions D12, D13; assumption log 7); built from
the reference values it is `State.reset`. -/
def Obligations.ConstructedMachineHoldsItsParameters : Prop :=
  (∀ (c : Config) (pc : Word) (image : Nat → Byte) (g : Registry),
    (∀ a, a < c.capacity → Memory.read (State.construct c pc image g).mem a = image a) ∧
    (State.construct c pc image g).getReg .pc = pc ∧
    (∀ r, r ≠ .pc → (State.construct c pc image g).getReg r = 0#16) ∧
    (State.construct c pc image g).halted = false ∧ (State.construct c pc image g).sig = g ∧
    (State.construct c pc image g).cfg = c ∧
    (Registry.wf g → c.encoding.wf → (State.construct c pc image g).Inv)) ∧
  State.construct Config.reference Config.resetPc (fun _ => 0#8) [] = State.reset

/-- The invariant holds at reset. -/
def Obligations.ResetMeetsInvariant : Prop := State.reset.Inv

/-! ## Whole-machine properties -/

/-- The invariant is kept by every step, whatever it runs: the memory stays canonical and inside the capacity (R38,
R44), the registry canonical, the numbering legal. -/
def Obligations.StepKeepsInvariant : Prop :=
  ∀ s t : State, s.Inv → step s = .next t → t.Inv

/-- The invariant is kept by everything the host can ask between two steps (R9), done or failed. That it can ask for a
push or a pop is the model's choice (assumption log 24). -/
def Obligations.HostRequestsKeepInvariant : Prop :=
  ∀ (q : HostRequest) (s : State), s.Inv → (hostRequest q s).state.Inv

/-- R38, R55, R143: no step, and no handler inside one, changes the capacity, the byte order, the numbering or the
registry. -/
def Obligations.StepKeepsParametersAndRegistry : Prop :=
  ∀ s t : State, step s = .next t → t.cfg = s.cfg ∧ t.sig = s.sig

/-- R35: a step executes the instruction at PC whatever `halted` holds, and does the same with it, but for what a
handler of which the host says nothing may read (R34); and only a handler writes `halted`: an error, or an `Ok` with
no handler called, leaves it. -/
def Obligations.HaltedIsNeverRead : Prop :=
  (∀ (s : State) (b : Bool) (i : Instr), s.Fetches i →
    step (s.setHalted b) = exec i ((advance s).setHalted b)) ∧
  (∀ (s t : State) (b : Bool),
    (∀ id n, s.Fetches (.signal id) → Registry.lookup s.sig id ≠ some (.free n)) → step s = .next t →
    ∃ u, step (s.setHalted b) = .next u ∧ u.setHalted t.halted = t) ∧
  (∀ (s t : State), (∀ i, s.Fetches i → ¬ i.CallsHandler s) → step s = .next t → t.halted = s.halted)

/-- R161, R168: the machine keeps no error state: what a step does does not depend on what the last one answered,
which the model records in a field of its own (assumption log 5). -/
def Obligations.AnswerOfLastStepIsNeverRead : Prop :=
  ∀ (s : State) (r : StepResult), step (s.answer r) = step s

/-- R23, R30, R31: the engine reads and writes no register implicitly but PC and SP: any other register that the
instruction does not name can hold anything, and holds it still afterwards. FL is one of them. -/
def Obligations.UnnamedRegisterIsNeitherReadNorWritten : Prop :=
  ∀ (i : Instr) (s t : State) (r : Reg) (v : Word), r ≠ .pc → r ≠ .sp → r ∉ i.named →
    ¬ i.CallsHandler s → exec i s = .next t → exec i (s.setReg r v) = .next (t.setReg r v)

/-- R23: which registers each instruction writes; every other keeps its value, whether the instruction ends in `Ok` or
in an error. The control state is kept as well. -/
def Obligations.InstructionsWriteOnlyTheirRegisters : Prop :=
  ∀ (i : Instr) (s t : State), ¬ i.CallsHandler s → exec i s = .next t →
    s.KeepsRegsBut i.written t ∧ s.KeepsControl t

/-- R39, R61: memory changes only where an instruction stores: two bytes at the address `Instr.storesAt` computes for
PUSH, PUSHREG and ADDSTACK, none for the others, and none at all when the instruction ends in an error. -/
def Obligations.MemoryChangesOnlyWhereStored : Prop :=
  ∀ (i : Instr) (s t : State), ¬ i.CallsHandler s → exec i s = .next t →
    (∀ a, i.storesAt s = some a → s.KeepsBytesBut a 2 t) ∧
    (i.storesAt s = none → s.KeepsBytes t) ∧
    (t.result ≠ .ok → t.mem = s.mem)

/-- R200: as long as the stack lies behind the program counter, a step that neither wraps PC nor has PC or SP as the
destination of its instruction nor calls a handler stores only below the advanced PC and leaves the stack behind it.
Reading PC or SP (PUSHREG PC, ADDREG r, SP) is allowed. -/
def Obligations.StraightLineStackStaysBehindPc : Prop :=
  ∀ (s t : State) (i : Instr), s.spAddr ≤ s.pcAddr → s.pcAddr + 2 < 65536 → s.Fetches i →
    i.dest ≠ some .pc → i.dest ≠ some .sp → ¬ i.CallsHandler s → step s = .next t →
    t.pcAddr = s.pcAddr + 2 ∧ t.spAddr ≤ t.pcAddr ∧
    ∀ a, t.pcAddr ≤ a → Memory.read t.mem a = Memory.read s.mem a

/-- R65: a step whose accesses are all at even addresses, on an image given as 16-bit words, does the same under both
byte orders, the answer included, unless it calls a handler. -/
def Obligations.ByteOrderIsUnobservableAtEvenAddresses : Prop :=
  ∀ s t u : State, s.MirroredBy t → s.pcAddr % 2 = 0 → s.spAddr % 2 = 0 →
    (∀ i, s.Fetches i → ¬ i.CallsHandler s) → step s = .next u →
    ∃ v, step t = .next v ∧ u.MirroredBy v

/-- R165, R167 (an error is a next state: assumption log 5): the state an error leaves. Memory and the control state
are unchanged; every register but PC and SP is unchanged; PC is not advanced exactly when the fetch failed (its wrap
is the spec's decision D10, assumption log 12); SP is two lower for POPREG and ADDSTACK with SP at least 2, and
unchanged otherwise. -/
def Obligations.ErrorLeavesStateOfFailingPlace : Prop :=
  ∀ (s t : State) (e : StepError), step s = .next t → t.result = .err e →
    t.mem = s.mem ∧ s.KeepsControl t ∧ s.KeepsRegsBut [.pc, .sp] t ∧
    t.getReg .pc = (if s.pcAddr + 1 < s.capacity then addWrap (s.getReg .pc) 2#16 else s.getReg .pc) ∧
    (2 ≤ s.spAddr ∧ ((∃ r, s.Fetches (.popReg r)) ∨ s.Fetches .addStack) →
      t.getReg .sp = s.getReg .sp - 2#16) ∧
    (¬ (2 ≤ s.spAddr ∧ ((∃ r, s.Fetches (.popReg r)) ∨ s.Fetches .addStack)) →
      t.getReg .sp = s.getReg .sp)

/-- R162, R163, R164, R166: what each error kind is raised by, the address of OutOfBoundsAccess being that of the
access that failed; the values the errors carry are the spec's decision D24 (assumption log 16). -/
def Obligations.ErrorKindsHaveTheirCauses : Prop :=
  ∀ s t : State, step s = .next t →
    (∀ a, t.result = .err (.outOfBoundsAccess a) → s.capacity ≤ a + 1 ∧
      ((a = s.pcAddr ∧ t.getReg .pc = s.getReg .pc) ∨
        (a = s.spAddr ∧ ((∃ b, s.Fetches (.push b)) ∨ ∃ r, s.Fetches (.pushReg r))) ∨
        (a = s.spAddr - 2 ∧ 2 ≤ s.spAddr ∧ ((∃ r, s.Fetches (.popReg r)) ∨ s.Fetches .addStack)))) ∧
    (∀ w, t.result = .err (.invalidOpcode w) → s.pcAddr + 1 < s.capacity ∧ w = s.wordAt s.pcAddr ∧
      ∀ i, decode s.cfg.encoding w ≠ .ok i) ∧
    (t.result = .err .stackUnderflow → t.spAddr < 2 ∧
      ((∃ r, s.Fetches (.popReg r) ∧ s.spAddr < 2) ∨ (s.Fetches .addStack ∧ s.spAddr < 4))) ∧
    (∀ id, t.result = .err (.unknownSignal id) → s.Fetches (.signal id) ∧ Registry.lookup s.sig id = none)

/-! ## The instructions -/

/-- R120: NOP answers `Ok` and changes nothing. -/
def Obligations.NopHasNoEffect : Prop :=
  ∀ s : State, ∃ t, exec .nop s = .next t ∧ t.result = .ok ∧ s.KeepsRegsBut [] t ∧ s.KeepsBytes t ∧
    s.KeepsControl t

/-- R121: PUSH stores the zero-extended immediate at SP and adds 2 to SP with wrap when `SP + 1 < CAPACITY`; otherwise
it raises OutOfBoundsAccess and leaves SP and memory. -/
def Obligations.PushStoresZeroExtendedImmediate : Prop :=
  ∀ (s : State) (imm8 : Byte),
    (zext16 imm8).toNat = imm8.toNat ∧
    if s.spAddr + 1 < s.capacity then
      ∃ t, exec (.push imm8) s = .next t ∧ t.result = .ok ∧ t.wordAt s.spAddr = zext16 imm8 ∧
        t.getReg .sp = addWrap (s.getReg .sp) 2#16 ∧ s.KeepsRegsBut [.sp] t ∧ s.KeepsBytesBut s.spAddr 2 t ∧
        s.KeepsControl t
    else exec (.push imm8) s = .next (s.answer (.err (.outOfBoundsAccess s.spAddr)))

/-- R123: PUSHREG stores the register's value from before SP moves (also for PUSHREG SP), keeps every other register,
and fails as PUSH does. -/
def Obligations.PushRegStoresRegister : Prop :=
  ∀ (s : State) (r : Reg),
    if s.spAddr + 1 < s.capacity then
      ∃ t, exec (.pushReg r) s = .next t ∧ t.result = .ok ∧ t.wordAt s.spAddr = s.getReg r ∧
        t.getReg .sp = addWrap (s.getReg .sp) 2#16 ∧ s.KeepsRegsBut [.sp] t ∧ s.KeepsBytesBut s.spAddr 2 t ∧
        s.KeepsControl t
    else exec (.pushReg r) s = .next (s.answer (.err (.outOfBoundsAccess s.spAddr)))

/-- R122: POPREG writes the word at SP - 2 to its register, after SP was lowered: SP ends two lower, unless the
register is SP, which then holds the popped word. No byte changes. -/
def Obligations.PopRegLoadsRegister : Prop :=
  ∀ (s : State) (r : Reg), 2 ≤ s.spAddr → s.spAddr - 1 < s.capacity →
    ∃ t, exec (.popReg r) s = .next t ∧ t.result = .ok ∧ t.getReg r = s.wordAt (s.spAddr - 2) ∧
      (r ≠ .sp → t.spAddr = s.spAddr - 2) ∧ s.KeepsRegsBut [.sp, r] t ∧ s.KeepsBytes t ∧ s.KeepsControl t

/-- R106, R122: POPREG with SP below 2 raises StackUnderflow and changes nothing; with the read out of bounds it
raises OutOfBoundsAccess and leaves SP lowered by 2 and the register unwritten. -/
def Obligations.PopRegErrorsLeaveRegisterUnwritten : Prop :=
  ∀ (s : State) (r : Reg),
    (s.spAddr < 2 → exec (.popReg r) s = .next (s.answer (.err .stackUnderflow))) ∧
    (2 ≤ s.spAddr → s.capacity ≤ s.spAddr - 1 →
      ∃ t, exec (.popReg r) s = .next t ∧ t.result = .err (.outOfBoundsAccess (s.spAddr - 2)) ∧
        t.spAddr = s.spAddr - 2 ∧ s.KeepsRegsBut [.sp] t ∧ t.mem = s.mem ∧ s.KeepsControl t)

/-- R130, R132: ADDSTACK with `4 <= S` and `S - 1 < CAPACITY` replaces the word at S - 4 by the sum modulo 2^16 of it
and the word at S - 2, leaves the word at S - 2, and SP is S - 2. -/
def Obligations.AddStackReplacesTwoWordsBySum : Prop :=
  ∀ s : State, 4 ≤ s.spAddr → s.spAddr - 1 < s.capacity →
    ∃ t, exec .addStack s = .next t ∧ t.result = .ok ∧
      (t.wordAt (s.spAddr - 4)).toNat =
        ((s.wordAt (s.spAddr - 4)).toNat + (s.wordAt (s.spAddr - 2)).toNat) % 65536 ∧
      t.spAddr = s.spAddr - 2 ∧ s.KeepsRegsBut [.sp] t ∧ s.KeepsBytesBut (addressOf (s.getReg .sp - 4#16)) 2 t ∧
      addressOf (s.getReg .sp - 4#16) = s.spAddr - 4 ∧ s.KeepsControl t

/-- R130: the errors of ADDSTACK in the order they can occur; the second pop's read and the push never fail. -/
def Obligations.AddStackErrorsInOrder : Prop :=
  ∀ s : State,
    (s.spAddr < 2 → exec .addStack s = .next (s.answer (.err .stackUnderflow))) ∧
    (2 ≤ s.spAddr → s.capacity ≤ s.spAddr - 1 →
      ∃ t, exec .addStack s = .next t ∧ t.result = .err (.outOfBoundsAccess (s.spAddr - 2)) ∧
        t.spAddr = s.spAddr - 2 ∧ s.KeepsRegsBut [.sp] t ∧ t.mem = s.mem ∧ s.KeepsControl t) ∧
    (2 ≤ s.spAddr → s.spAddr < 4 → s.spAddr - 1 < s.capacity →
      ∃ t, exec .addStack s = .next t ∧ t.result = .err .stackUnderflow ∧
        t.spAddr = s.spAddr - 2 ∧ s.KeepsRegsBut [.sp] t ∧ t.mem = s.mem ∧ s.KeepsControl t)

/-- R131, R132: ADDREG writes the sum modulo 2^16 of both registers, read before the write, to `r1` alone, any two
registers (the same one, PC and SP among them). -/
def Obligations.AddRegAddsModulo : Prop :=
  ∀ (s : State) (r1 r2 : Reg),
    ∃ t, exec (.addReg r1 r2) s = .next t ∧ t.result = .ok ∧
      (t.getReg r1).toNat = ((s.getReg r1).toNat + (s.getReg r2).toNat) % 65536 ∧ s.KeepsRegsBut [r1] t ∧
      s.KeepsBytes t ∧ s.KeepsControl t

/-- R150: JMP sets PC to the register's value, whatever it is, and changes nothing else. -/
def Obligations.JmpSetsPc : Prop :=
  ∀ (s : State) (r : Reg),
    ∃ t, exec (.jmp r) s = .next t ∧ t.result = .ok ∧ t.getReg .pc = s.getReg r ∧ s.KeepsRegsBut [.pc] t ∧
      s.KeepsBytes t ∧ s.KeepsControl t

/-- R140, R166: SIGNAL with no handler for its id raises UnknownSignal and changes nothing, `halted` included; and a
step answers UnknownSignal for no other reason. The id the error carries is the spec's decision D24 (assumption log
16). -/
def Obligations.SignalWithoutHandlerIsUnknownSignal : Prop :=
  (∀ (s : State) (id : Byte), Registry.lookup s.sig id = none →
    exec (.signal id) s = .next (s.answer (.err (.unknownSignal id)))) ∧
  (∀ (s t : State) (id : Byte), step s = .next t → t.result = .err (.unknownSignal id) →
    s.Fetches (.signal id) ∧ Registry.lookup s.sig id = none)

/-- R140, R142, R143: SIGNAL with a handler whose effect the host guarantees answers `Ok` in the state its actions
lead to. -/
def Obligations.SignalRunsScriptedHandler : Prop :=
  ∀ (s : State) (id : Byte) (script : List HostAction), Registry.lookup s.sig id = some (.scripted script) →
    ∃ t, exec (.signal id) s = .next t ∧ t.result = .ok ∧ t.answer s.result = runScript script s ∧
      t.cfg = s.cfg ∧ t.sig = s.sig ∧ t.draws = s.draws

/-- R140, R142, R145: SIGNAL with a handler of which the host says nothing answers `Ok` in the state that the actions
the free value draws for this call lead to (assumption log 4; the statement holds whatever it draws), and the next
call draws anew. -/
def Obligations.SignalRunsFreeHandler : Prop :=
  ∀ (s : State) (id : Byte) (n : Nat), Registry.lookup s.sig id = some (.free n) →
    ∃ t, exec (.signal id) s = .next t ∧ t.result = .ok ∧
      (t.answer s.result).setDraws s.draws =
        runScript (Config.freeScript n s.draws s.cfg s.x s.mem s.halted) s ∧
      t.cfg = s.cfg ∧ t.sig = s.sig ∧ t.draws = s.draws + 1

/-- R37, R144: SIGNAL stops only where the handler breaks a duty the spec puts on the host, each under its own name
(the spec's decisions D21, D22; assumption log 17). -/
def Obligations.SignalStopsExactlyOnBreachingHandler : Prop :=
  ∀ (s : State) (id : Byte),
    (Registry.lookup s.sig id = some (.breaching .reentersStep) ↔
      exec (.signal id) s = .refused (.handlerReentersStep id)) ∧
    (Registry.lookup s.sig id = some (.breaching .neverReturns) ↔
      exec (.signal id) s = .fault (.handlerNeverReturns id)) ∧
    (Registry.lookup s.sig id = some (.breaching .registersHandler) ↔
      exec (.signal id) s = .refused (.handlerRegistersHandler id))

/-- R100, R144: every step has an end, unless its SIGNAL calls a handler that breaks its duties. -/
def Obligations.StepAlwaysAnswersUnlessHandlerBreachesDuty : Prop :=
  ∀ s : State, (∀ id b, s.Fetches (.signal id) → Registry.lookup s.sig id ≠ some (.breaching b)) →
    ∃ t, step s = .next t ∧ t.result ≠ .notStepped

/-- R143: what each thing a handler can do changes and what it leaves. A register write and a write of `halted` cannot
fail; a memory write or a push that fails changes nothing; a pop that underflows changes nothing, and one whose read
is out of bounds leaves SP lowered (R106). The error goes to the handler (the values it carries are the spec's
decision D24, assumption log 16; the push's wrap is D11, assumption log 12; the failed 16-bit write is D9, assumption
log 11). -/
def Obligations.HandlerActionsUseTheMachinesInterfaces : Prop :=
  ∀ (s : State) (r : Reg) (v : Word) (addr : Nat) (b : Byte) (h : Bool),
    hostAct (.setReg r v) s = .ok () (s.setReg r v) ∧
    hostAct (.setHalted h) s = .ok () (s.setHalted h) ∧
    (addr < s.capacity → ∃ t, hostAct (.write addr b) s = .ok () t ∧ Memory.read t.mem addr = b ∧
      s.KeepsBytesBut addr 1 t ∧ s.KeepsRegsBut [] t ∧ s.KeepsControl t) ∧
    (s.capacity ≤ addr → hostAct (.write addr b) s = .raised (.outOfBoundsAccess addr) s) ∧
    (addr + 1 < s.capacity → ∃ t, hostAct (.write16 addr v) s = .ok () t ∧ t.wordAt addr = v ∧
      s.KeepsBytesBut addr 2 t ∧ s.KeepsRegsBut [] t ∧ s.KeepsControl t) ∧
    (s.capacity ≤ addr + 1 → hostAct (.write16 addr v) s = .raised (.outOfBoundsAccess addr) s) ∧
    (s.spAddr + 1 < s.capacity → ∃ t, hostAct (.push v) s = .ok () t ∧ t.wordAt s.spAddr = v ∧
      t.getReg .sp = addWrap (s.getReg .sp) 2#16 ∧ s.KeepsBytesBut s.spAddr 2 t ∧ s.KeepsRegsBut [.sp] t ∧
      s.KeepsControl t) ∧
    (s.capacity ≤ s.spAddr + 1 → hostAct (.push v) s = .raised (.outOfBoundsAccess s.spAddr) s) ∧
    (2 ≤ s.spAddr → s.spAddr - 1 < s.capacity →
      hostAct .pop s = .ok () (s.setReg .sp (s.getReg .sp - 2#16))) ∧
    (2 ≤ s.spAddr → s.capacity ≤ s.spAddr - 1 →
      hostAct .pop s = .raised (.outOfBoundsAccess (s.spAddr - 2)) (s.setReg .sp (s.getReg .sp - 2#16))) ∧
    (s.spAddr < 2 → hostAct .pop s = .raised .stackUnderflow s)

/-! ## Stack and control flow -/

/-- R107 (a): a push that succeeds without wrapping SP, then a pop, gives the value back and leaves SP where it was. -/
def Obligations.PushThenPopRestores : Prop :=
  ∀ (s t : State) (v : Word), push v s = .ok () t → s.spAddr + 2 < 65536 →
    ∃ u, pop t = .ok v u ∧ u.getReg .sp = s.getReg .sp ∧ u.mem = t.mem ∧ s.KeepsRegsBut [] u

/-- R107 (a), the excluded case: with 64 KiB and SP = 0xFFFE the push succeeds, SP is 0 and the pop underflows. -/
def Obligations.PushAtTopOfFullMemoryThenPopUnderflows : Prop :=
  ∀ (s : State) (v : Word), s.cfg.memKib.val = 64 → s.getReg .sp = 0xFFFE#16 →
    ∃ t, push v s = .ok () t ∧ t.getReg .sp = 0#16 ∧ pop t = .raised .stackUnderflow t

/-- R107 (b): on a freshly constructed machine `pop()` fails with StackUnderflow and SP remains 0. -/
def Obligations.PopUnderflowsOnFreshMachine : Prop :=
  ∀ (c : Config) (pc : Word) (image : Nat → Byte) (g : Registry),
    pop (State.construct c pc image g) = .raised .stackUnderflow (State.construct c pc image g) ∧
    (State.construct c pc image g).getReg .sp = 0#16

/-- R152: ADDREG PC, r2 at address P continues at `(P + 2 + x[r2]) mod 2^16`; with r2 = PC it doubles the advanced PC. -/
def Obligations.AddRegPcIsRelativeJump : Prop :=
  ∀ (s : State) (r2 : Reg), s.Fetches (.addReg .pc r2) →
    ∃ t, step s = .next t ∧ t.result = .ok ∧
      t.pcAddr = (if r2 = .pc then 2 * (s.pcAddr + 2) else s.pcAddr + 2 + (s.getReg r2).toNat) % 65536 ∧
      s.KeepsRegsBut [.pc] t ∧ s.KeepsBytes t ∧ s.KeepsControl t

/-- R153: PUSHREG PC at address P pushes the address of the following instruction. -/
def Obligations.PushPcCapturesFollowingAddress : Prop :=
  ∀ s : State, s.Fetches (.pushReg .pc) → s.spAddr + 1 < s.capacity →
    ∃ t, step s = .next t ∧ t.result = .ok ∧ t.wordAt s.spAddr = addWrap (s.getReg .pc) 2#16 ∧
      t.getReg .pc = addWrap (s.getReg .pc) 2#16 ∧ t.getReg .sp = addWrap (s.getReg .sp) 2#16

/-- R151: POPREG PC continues at the popped word; when its pop fails, PC keeps the advanced value. -/
def Obligations.PopPcJumpsToPoppedWord : Prop :=
  ∀ s : State, s.Fetches (.popReg .pc) →
    (2 ≤ s.spAddr → s.spAddr - 1 < s.capacity →
      ∃ t, step s = .next t ∧ t.result = .ok ∧ t.getReg .pc = s.wordAt (s.spAddr - 2) ∧
        t.spAddr = s.spAddr - 2) ∧
    (s.spAddr < 2 ∨ s.capacity ≤ s.spAddr - 1 →
      ∃ t e, step s = .next t ∧ t.result = .err e ∧ t.getReg .pc = addWrap (s.getReg .pc) 2#16)

/-- R150, R101 (lazy: the spec's decision D18, assumption log 15): a jump out of memory answers `Ok`; the step after
it fails its fetch and changes nothing. -/
def Obligations.JumpOutOfMemoryFailsAtNextFetch : Prop :=
  ∀ (s : State) (r : Reg), s.Fetches (.jmp r) → s.capacity ≤ addressOf ((advance s).getReg r) + 1 →
    ∃ t, step s = .next t ∧ t.result = .ok ∧ t.getReg .pc = (advance s).getReg r ∧
      step t = .next (t.answer (.err (.outOfBoundsAccess t.pcAddr)))

/-! ## The driver and the host's question -/

/-- R110 (the spec's decision D23, assumption log 21): the reference driver stops on `Err`, else when `halted` is set
after a successful step, else steps on. -/
def Obligations.DriverStopsAtErrorOrHalt : Prop :=
  ∀ (n : Nat) (s t : State), step s = .next t → t.result ≠ .notStepped →
    (∀ e, t.result = .err e → driverRun (n + 1) s = .faulted e t) ∧
    (t.result = .ok → t.halted = true → driverRun (n + 1) s = .halted t) ∧
    (t.result = .ok → t.halted = false → driverRun (n + 1) s = driverRun n t)

/-- R110 (assumption log 21): what the driver returned is final: looking at more steps does not change it. -/
def Obligations.DriverVerdictIsFinal : Prop :=
  ∀ (n k : Nat) (s : State), (∀ t, driverRun n s ≠ .running t) → driverRun (n + k) s = driverRun n s

/-- The model's own statement (assumption log 6): a word placed by `withFetchWord` is what the next step runs. -/
def Obligations.PlacedWordRunsNext : Prop :=
  ∀ (s : State) (nbits w : Nat) (i : Instr), decodeTableWord nbits w = some i →
    step (s.withFetchWord nbits w) = exec i (advance (s.withFetchWord nbits w)) ∧
    (s.inBounds16 s.pcAddr → (s.withFetchWord nbits w).x = s.x)
end

