-- ==== Sys2Proof/Laws/State.lean ====
section
/-! SUPPORT. The small lemmas of the register file and of State's updates, so that no later proof unfolds a record update:
one lemma for each field and each update. -/

namespace Sys2Proof

theorem Reg.mem_all (r : Reg) : r ∈ Reg.all := by cases r <;> decide

theorem Op.mem_all (o : Op) : o ∈ Op.all := by cases o <;> decide

@[simp] theorem RegFile.get_set_self (x : RegFile) (r : Reg) (v : Word) : (x.set r v).get r = v := by
  cases r <;> rfl

theorem RegFile.get_set_of_ne (x : RegFile) {r r' : Reg} (v : Word) (h : r' ≠ r) :
    (x.set r v).get r' = x.get r' := by
  cases r <;> cases r' <;> first | rfl | exact absurd rfl h

theorem RegFile.set_set_self (x : RegFile) (r : Reg) (v w : Word) : (x.set r v).set r w = x.set r w := by
  cases r <;> rfl

theorem RegFile.set_comm (x : RegFile) {r r' : Reg} (v w : Word) (h : r' ≠ r) :
    (x.set r v).set r' w = (x.set r' w).set r v := by
  cases r <;> cases r' <;> first | rfl | exact absurd rfl h

theorem RegFile.ext_get {x y : RegFile} (h : ∀ r, x.get r = y.get r) : x = y := by
  cases x
  cases y
  rw [RegFile.mk.injEq]
  exact ⟨h .a, h .b, h .c, h .m, h .sp, h .pc, h .bp, h .fl⟩

namespace Machine

/-! ### setReg -/

@[simp] theorem State.setReg_cfg (s : State) (r : Reg) (v : Word) : (s.setReg r v).cfg = s.cfg := rfl
@[simp] theorem State.setReg_x (s : State) (r : Reg) (v : Word) : (s.setReg r v).x = s.x.set r v := rfl
@[simp] theorem State.setReg_mem (s : State) (r : Reg) (v : Word) : (s.setReg r v).mem = s.mem := rfl
@[simp] theorem State.setReg_halted (s : State) (r : Reg) (v : Word) : (s.setReg r v).halted = s.halted := rfl
@[simp] theorem State.setReg_sig (s : State) (r : Reg) (v : Word) : (s.setReg r v).sig = s.sig := rfl
@[simp] theorem State.setReg_result (s : State) (r : Reg) (v : Word) : (s.setReg r v).result = s.result := rfl
@[simp] theorem State.setReg_draws (s : State) (r : Reg) (v : Word) : (s.setReg r v).draws = s.draws := rfl
@[simp] theorem State.setReg_capacity (s : State) (r : Reg) (v : Word) :
    (s.setReg r v).capacity = s.capacity := rfl
@[simp] theorem State.setReg_wordAt (s : State) (r : Reg) (v : Word) (a : Nat) :
    (s.setReg r v).wordAt a = s.wordAt a := rfl

@[simp] theorem State.getReg_setReg_self (s : State) (r : Reg) (v : Word) : (s.setReg r v).getReg r = v :=
  RegFile.get_set_self s.x r v

theorem State.getReg_setReg_of_ne (s : State) {r r' : Reg} (v : Word) (h : r' ≠ r) :
    (s.setReg r v).getReg r' = s.getReg r' :=
  RegFile.get_set_of_ne s.x v h

theorem State.setReg_comm (s : State) {r r' : Reg} (v w : Word) (h : r' ≠ r) :
    (s.setReg r v).setReg r' w = (s.setReg r' w).setReg r v := by
  simp only [State.setReg, RegFile.set_comm s.x v w h]

/-! ### storeWord -/

@[simp] theorem State.storeWord_cfg (s : State) (a : Nat) (v : Word) : (s.storeWord a v).cfg = s.cfg := rfl
@[simp] theorem State.storeWord_x (s : State) (a : Nat) (v : Word) : (s.storeWord a v).x = s.x := rfl
@[simp] theorem State.storeWord_mem (s : State) (a : Nat) (v : Word) : (s.storeWord a v).mem =
    Memory.write (Memory.write s.mem a (firstByte s.cfg.byteOrder v)) (a + 1) (secondByte s.cfg.byteOrder v) := rfl
@[simp] theorem State.storeWord_halted (s : State) (a : Nat) (v : Word) : (s.storeWord a v).halted = s.halted := rfl
@[simp] theorem State.storeWord_sig (s : State) (a : Nat) (v : Word) : (s.storeWord a v).sig = s.sig := rfl
@[simp] theorem State.storeWord_result (s : State) (a : Nat) (v : Word) : (s.storeWord a v).result = s.result := rfl
@[simp] theorem State.storeWord_draws (s : State) (a : Nat) (v : Word) : (s.storeWord a v).draws = s.draws := rfl
@[simp] theorem State.storeWord_capacity (s : State) (a : Nat) (v : Word) :
    (s.storeWord a v).capacity = s.capacity := rfl
@[simp] theorem State.storeWord_getReg (s : State) (a : Nat) (v : Word) (r : Reg) :
    (s.storeWord a v).getReg r = s.getReg r := rfl

/-! ### advance -/

@[simp] theorem advance_cfg (s : State) : (advance s).cfg = s.cfg := rfl
@[simp] theorem advance_mem (s : State) : (advance s).mem = s.mem := rfl
@[simp] theorem advance_halted (s : State) : (advance s).halted = s.halted := rfl
@[simp] theorem advance_sig (s : State) : (advance s).sig = s.sig := rfl
@[simp] theorem advance_result (s : State) : (advance s).result = s.result := rfl
@[simp] theorem advance_draws (s : State) : (advance s).draws = s.draws := rfl
@[simp] theorem advance_capacity (s : State) : (advance s).capacity = s.capacity := rfl
@[simp] theorem advance_wordAt (s : State) (a : Nat) : (advance s).wordAt a = s.wordAt a := rfl
@[simp] theorem advance_pc (s : State) : (advance s).getReg .pc = addWrap (s.getReg .pc) 2#16 :=
  State.getReg_setReg_self s .pc _

theorem advance_getReg_of_ne (s : State) {r : Reg} (h : r ≠ .pc) : (advance s).getReg r = s.getReg r :=
  State.getReg_setReg_of_ne s _ h

/-! ### PC and SP as addresses -/

@[simp] theorem State.spAddr_setReg_sp (s : State) (v : Word) : (s.setReg .sp v).spAddr = addressOf v := by
  rw [State.spAddr, State.getReg_setReg_self]

@[simp] theorem State.pcAddr_setReg_pc (s : State) (v : Word) : (s.setReg .pc v).pcAddr = addressOf v := by
  rw [State.pcAddr, State.getReg_setReg_self]

theorem State.spAddr_setReg_of_ne (s : State) {r : Reg} (v : Word) (h : r ≠ .sp) :
    (s.setReg r v).spAddr = s.spAddr := by
  rw [State.spAddr, State.getReg_setReg_of_ne s v h.symm, State.spAddr]

theorem State.pcAddr_setReg_of_ne (s : State) {r : Reg} (v : Word) (h : r ≠ .pc) :
    (s.setReg r v).pcAddr = s.pcAddr := by
  rw [State.pcAddr, State.getReg_setReg_of_ne s v h.symm, State.pcAddr]

@[simp] theorem State.spAddr_storeWord (s : State) (a : Nat) (v : Word) : (s.storeWord a v).spAddr = s.spAddr := rfl
@[simp] theorem State.pcAddr_storeWord (s : State) (a : Nat) (v : Word) : (s.storeWord a v).pcAddr = s.pcAddr := rfl
@[simp] theorem advance_spAddr (s : State) : (advance s).spAddr = s.spAddr :=
  State.spAddr_setReg_of_ne s _ (by decide)
@[simp] theorem advance_pcAddr (s : State) : (advance s).pcAddr = addressOf (addWrap (s.getReg .pc) 2#16) :=
  State.pcAddr_setReg_pc s _

/-! ### The updates of single fields -/

@[simp] theorem State.answer_cfg (s : State) (q : StepResult) : (s.answer q).cfg = s.cfg := rfl
@[simp] theorem State.answer_x (s : State) (q : StepResult) : (s.answer q).x = s.x := rfl
@[simp] theorem State.answer_mem (s : State) (q : StepResult) : (s.answer q).mem = s.mem := rfl
@[simp] theorem State.answer_halted (s : State) (q : StepResult) : (s.answer q).halted = s.halted := rfl
@[simp] theorem State.answer_sig (s : State) (q : StepResult) : (s.answer q).sig = s.sig := rfl
@[simp] theorem State.answer_result (s : State) (q : StepResult) : (s.answer q).result = q := rfl
@[simp] theorem State.answer_draws (s : State) (q : StepResult) : (s.answer q).draws = s.draws := rfl
@[simp] theorem State.answer_capacity (s : State) (q : StepResult) : (s.answer q).capacity = s.capacity := rfl
@[simp] theorem State.answer_pcAddr (s : State) (q : StepResult) : (s.answer q).pcAddr = s.pcAddr := rfl
@[simp] theorem State.answer_spAddr (s : State) (q : StepResult) : (s.answer q).spAddr = s.spAddr := rfl
@[simp] theorem State.answer_getReg (s : State) (q : StepResult) (r : Reg) :
    (s.answer q).getReg r = s.getReg r := rfl
@[simp] theorem State.answer_wordAt (s : State) (q : StepResult) (a : Nat) :
    (s.answer q).wordAt a = s.wordAt a := rfl

@[simp] theorem State.setHalted_cfg (s : State) (h : Bool) : (s.setHalted h).cfg = s.cfg := rfl
@[simp] theorem State.setHalted_x (s : State) (h : Bool) : (s.setHalted h).x = s.x := rfl
@[simp] theorem State.setHalted_mem (s : State) (h : Bool) : (s.setHalted h).mem = s.mem := rfl
@[simp] theorem State.setHalted_halted (s : State) (h : Bool) : (s.setHalted h).halted = h := rfl
@[simp] theorem State.setHalted_sig (s : State) (h : Bool) : (s.setHalted h).sig = s.sig := rfl
@[simp] theorem State.setHalted_result (s : State) (h : Bool) : (s.setHalted h).result = s.result := rfl
@[simp] theorem State.setHalted_draws (s : State) (h : Bool) : (s.setHalted h).draws = s.draws := rfl
@[simp] theorem State.setHalted_capacity (s : State) (h : Bool) : (s.setHalted h).capacity = s.capacity := rfl
@[simp] theorem State.setHalted_pcAddr (s : State) (h : Bool) : (s.setHalted h).pcAddr = s.pcAddr := rfl
@[simp] theorem State.setHalted_spAddr (s : State) (h : Bool) : (s.setHalted h).spAddr = s.spAddr := rfl
@[simp] theorem State.setHalted_getReg (s : State) (h : Bool) (r : Reg) :
    (s.setHalted h).getReg r = s.getReg r := rfl
@[simp] theorem State.setHalted_wordAt (s : State) (h : Bool) (a : Nat) :
    (s.setHalted h).wordAt a = s.wordAt a := rfl

@[simp] theorem State.setMem_cfg (s : State) (m : Memory) : (s.setMem m).cfg = s.cfg := rfl
@[simp] theorem State.setMem_x (s : State) (m : Memory) : (s.setMem m).x = s.x := rfl
@[simp] theorem State.setMem_mem (s : State) (m : Memory) : (s.setMem m).mem = m := rfl
@[simp] theorem State.setMem_halted (s : State) (m : Memory) : (s.setMem m).halted = s.halted := rfl
@[simp] theorem State.setMem_sig (s : State) (m : Memory) : (s.setMem m).sig = s.sig := rfl
@[simp] theorem State.setMem_result (s : State) (m : Memory) : (s.setMem m).result = s.result := rfl
@[simp] theorem State.setMem_draws (s : State) (m : Memory) : (s.setMem m).draws = s.draws := rfl
@[simp] theorem State.setMem_capacity (s : State) (m : Memory) : (s.setMem m).capacity = s.capacity := rfl
@[simp] theorem State.setMem_pcAddr (s : State) (m : Memory) : (s.setMem m).pcAddr = s.pcAddr := rfl
@[simp] theorem State.setMem_spAddr (s : State) (m : Memory) : (s.setMem m).spAddr = s.spAddr := rfl
@[simp] theorem State.setMem_getReg (s : State) (m : Memory) (r : Reg) :
    (s.setMem m).getReg r = s.getReg r := rfl

@[simp] theorem State.setDraws_cfg (s : State) (n : Nat) : (s.setDraws n).cfg = s.cfg := rfl
@[simp] theorem State.setDraws_x (s : State) (n : Nat) : (s.setDraws n).x = s.x := rfl
@[simp] theorem State.setDraws_mem (s : State) (n : Nat) : (s.setDraws n).mem = s.mem := rfl
@[simp] theorem State.setDraws_halted (s : State) (n : Nat) : (s.setDraws n).halted = s.halted := rfl
@[simp] theorem State.setDraws_sig (s : State) (n : Nat) : (s.setDraws n).sig = s.sig := rfl
@[simp] theorem State.setDraws_result (s : State) (n : Nat) : (s.setDraws n).result = s.result := rfl
@[simp] theorem State.setDraws_draws (s : State) (n : Nat) : (s.setDraws n).draws = n := rfl
@[simp] theorem State.setDraws_capacity (s : State) (n : Nat) : (s.setDraws n).capacity = s.capacity := rfl
@[simp] theorem State.setDraws_pcAddr (s : State) (n : Nat) : (s.setDraws n).pcAddr = s.pcAddr := rfl
@[simp] theorem State.setDraws_spAddr (s : State) (n : Nat) : (s.setDraws n).spAddr = s.spAddr := rfl
@[simp] theorem State.setDraws_getReg (s : State) (n : Nat) (r : Reg) :
    (s.setDraws n).getReg r = s.getReg r := rfl
@[simp] theorem State.setDraws_wordAt (s : State) (n : Nat) (a : Nat) :
    (s.setDraws n).wordAt a = s.wordAt a := rfl

@[simp] theorem State.answer_answer (s : State) (q q' : StepResult) : (s.answer q).answer q' = s.answer q' := rfl

/-! ### Ran -/

@[simp] theorem Ran.state_ok {α : Type} (v : α) (s : State) : (Ran.ok v s).state = s := rfl
@[simp] theorem Ran.state_raised {α : Type} (e : StepError) (s : State) :
    (Ran.raised e s : Ran α).state = s := rfl
@[simp] theorem Ran.andThen_ok {α β : Type} (v : α) (s : State) (k : α → State → Ran β) :
    (Ran.ok v s).andThen k = k v s := rfl
@[simp] theorem Ran.andThen_raised {α β : Type} (e : StepError) (s : State) (k : α → State → Ran β) :
    (Ran.raised e s : Ran α).andThen k = .raised e s := rfl
@[simp] theorem Ran.finish_ok (u : Unit) (s : State) :
    (Ran.ok u s).finish = .next (s.answer .ok) := rfl
@[simp] theorem Ran.finish_raised (e : StepError) (s : State) :
    (Ran.raised e s : Ran Unit).finish = .next (s.answer (.err e)) := rfl

end Machine

end Sys2Proof
end

