-- ==== Sys2Proof/Laws/Decode.lean ====
section
/-! SUPPORT. The lemmas of the decoder and the encoder: what each lookup finds under a legal numbering, and the fields of an
encoded word. -/

namespace Sys2Proof

theorem Encoding.opcode_inj {e : Encoding} (h : e.wf) {o o' : Op} (hc : e.opcode o = e.opcode o') : o = o' :=
  List.inj_on_of_nodup_map h.1 (Op.mem_all o) (Op.mem_all o') hc

theorem Encoding.num_inj {e : Encoding} (h : e.wf) {r r' : Reg} (hc : e.num r = e.num r') : r = r' :=
  List.inj_on_of_nodup_map h.2.2 (Reg.mem_all r) (Reg.mem_all r') hc

/-- What the opcode lookup can answer: an opcode whose byte it is, or none that has it. -/
theorem Encoding.opAt_eq_some {e : Encoding} {b : Byte} {o : Op} (h : e.opAt b = some o) : e.opcode o = b := by
  simpa using List.find?_some h

theorem Encoding.opAt_eq_none {e : Encoding} {b : Byte} : e.opAt b = none ↔ ∀ o, e.opcode o ≠ b := by
  simp only [Encoding.opAt, List.find?_eq_none, beq_iff_eq]
  exact ⟨fun h o => h o (Op.mem_all o), fun h o _ => h o⟩

@[simp] theorem Encoding.opAt_opcode {e : Encoding} (h : e.wf) (o : Op) : e.opAt (e.opcode o) = some o := by
  cases hf : e.opAt (e.opcode o) with
  | none => exact absurd rfl (Encoding.opAt_eq_none.1 hf o)
  | some o' => rw [Encoding.opcode_inj h (Encoding.opAt_eq_some hf)]

/-- What the register lookup can answer: a register whose number it is. -/
theorem Encoding.regAt_eq_some {e : Encoding} {n : Nat} {r : Reg} (h : e.regAt n = some r) :
    n ≤ 7 ∧ (e.num r).toNat = n := by
  unfold Encoding.regAt at h
  split at h
  · rename_i hn
    have hr : e.num r = BitVec.ofNat 3 n := by simpa using List.find?_some h
    refine ⟨hn, ?_⟩
    rw [hr, BitVec.toNat_ofNat]
    omega
  · cases h

@[simp] theorem Encoding.regAt_num {e : Encoding} (h : e.wf) (r : Reg) :
    e.regAt (e.num r).toNat = some r := by
  have hn : (e.num r).toNat ≤ 7 := by have := (e.num r).isLt; omega
  cases hf : e.regAt (e.num r).toNat with
  | none =>
    unfold Encoding.regAt at hf
    rw [if_pos hn] at hf
    have := List.find?_eq_none.1 hf r (Reg.mem_all r)
    simp at this
  | some r' =>
    have hr := (Encoding.regAt_eq_some hf).2
    rw [Encoding.num_inj h (BitVec.eq_of_toNat_eq hr)]

/-! ### Fields of a word put together -/

@[simp] theorem opcodeByte_append (hi lo : Byte) : opcodeByte (hi ++ lo) = hi :=
  @BitVec.extractLsb'_append_eq_left 8 8 hi lo

@[simp] theorem operandByte_append (hi lo : Byte) : operandByte (hi ++ lo) = lo :=
  @BitVec.extractLsb'_append_eq_right 8 8 hi lo

/-- A word is its two bytes. -/
theorem word_eq_append (w : Word) : w = (opcodeByte w ++ operandByte w : BitVec (8 + 8)) := by
  refine BitVec.eq_of_getLsbD_eq fun i hi => ?_
  simp only [opcodeByte, operandByte, BitVec.getLsbD_append, BitVec.getLsbD_extractLsb']
  by_cases h : i < 8
  · simp [h]
  · have hback : 8 + (i - 8) = i := by omega
    simp [h, hback]
    omega

theorem word_eq_of_bytes {v w : Word} (h : opcodeByte v = opcodeByte w) (l : operandByte v = operandByte w) :
    v = w := by
  rw [word_eq_append v, word_eq_append w, h, l]

@[simp] theorem highNibble_append (h l : BitVec 4) : highNibble (h ++ l) = h :=
  @BitVec.extractLsb'_append_eq_left 4 4 h l

@[simp] theorem lowNibble_append (h l : BitVec 4) : lowNibble (h ++ l) = l :=
  @BitVec.extractLsb'_append_eq_right 4 4 h l

@[simp] theorem opcodeByte_encode (e : Encoding) (i : Instr) : opcodeByte (encode e i) = e.opcode i.op :=
  opcodeByte_append _ _

@[simp] theorem operandByte_encode (e : Encoding) (i : Instr) : operandByte (encode e i) = encodeOperand e i :=
  operandByte_append _ _

end Sys2Proof
end

