-- ==== Sys2Proof/Laws/Memory.lean ====
section
/-! SUPPORT. The laws of the byte store: what a write does to each byte, and that every memory operation keeps the canonical
form and stays inside the capacity. -/

namespace Sys2Proof.Machine

theorem Memory.read_of_not_listed {m : Memory} {a : Nat} (h : ∀ c ∈ m, c.1 ≠ a) :
    Memory.read m a = Memory.fill := by
  induction m with
  | nil => rfl
  | cons c m ih =>
    simp only [Memory.read]
    rw [if_neg (h c (by simp))]
    exact ih fun d hd => h d (by simp [hd])

theorem Memory.read_filter_of_ne (m : Memory) {a c : Nat} (h : c ≠ a) :
    Memory.read (m.filter fun d => d.1 != a) c = Memory.read m c := by
  induction m with
  | nil => rfl
  | cons d m ih =>
    by_cases hd : d.1 = a
    · have : d.1 ≠ c := fun hc => h (hc ▸ hd)
      simp [hd, Memory.read, ih, Ne.symm h]
    · simp [hd, Memory.read, ih]

theorem Memory.read_insert (m : Memory) (a c : Nat) (b : Byte) (h : ∀ d ∈ m, d.1 ≠ a) :
    Memory.read (Memory.insert a b m) c = if a = c then b else Memory.read m c := by
  induction m with
  | nil => rfl
  | cons d m ih =>
    have ih := ih fun e he => h e (by simp [he])
    have hd := h d (by simp)
    by_cases hlt : a < d.1
    · simp [Memory.insert, hlt, Memory.read]
    · simp only [Memory.insert, hlt, if_false, Memory.read, ih]
      by_cases hac : a = c
      · have : d.1 ≠ c := fun hc => hd (hc.trans hac.symm)
        simp [hac, this]
      · simp [hac]

theorem Memory.not_listed_filter (m : Memory) (a : Nat) : ∀ d ∈ m.filter (fun d => d.1 != a), d.1 ≠ a := by
  intro d hd
  simpa using (List.mem_filter.1 hd).2

/-- Law of the store: a byte just written reads back (R64 (a) for one byte, with no check). -/
@[simp] theorem Memory.read_write_self (m : Memory) (a : Nat) (b : Byte) :
    Memory.read (Memory.write m a b) a = b := by
  unfold Memory.write
  by_cases hb : b = Memory.fill
  · simp [hb, Memory.read_of_not_listed (Memory.not_listed_filter m a)]
  · simp [hb, Memory.read_insert _ _ _ _ (Memory.not_listed_filter m a)]

/-- Law of the store: a write leaves every other byte (R64 (b) for one byte, with no check). -/
theorem Memory.read_write_of_ne (m : Memory) {a c : Nat} (b : Byte) (h : c ≠ a) :
    Memory.read (Memory.write m a b) c = Memory.read m c := by
  unfold Memory.write
  by_cases hb : b = Memory.fill
  · simp [hb, Memory.read_filter_of_ne m h]
  · simp [hb, Memory.read_insert _ _ _ _ (Memory.not_listed_filter m a), Ne.symm h,
      Memory.read_filter_of_ne m h]

theorem Memory.mem_insert {a : Nat} {b : Byte} {m : Memory} {c : Host.Cell} :
    c ∈ Memory.insert a b m ↔ c = (a, b) ∨ c ∈ m := by
  induction m with
  | nil => simp [Memory.insert]
  | cons d m ih =>
    by_cases hlt : a < d.1
    · simp [Memory.insert, hlt]
    · simp only [Memory.insert, hlt, if_false, List.mem_cons, ih]
      tauto

theorem Memory.pairwise_insert {a : Nat} {b : Byte} {m : Memory} (h : m.Pairwise fun c d => c.1 < d.1)
    (ha : ∀ d ∈ m, d.1 ≠ a) : (Memory.insert a b m).Pairwise fun c d => c.1 < d.1 := by
  induction m with
  | nil => simp [Memory.insert]
  | cons d m ih =>
    obtain ⟨hd, hm⟩ := List.pairwise_cons.1 h
    have ih := ih hm fun e he => ha e (by simp [he])
    by_cases hlt : a < d.1
    · simp only [Memory.insert, hlt, if_true]
      refine List.pairwise_cons.2 ⟨?_, h⟩
      intro e he
      rcases List.mem_cons.1 he with rfl | he
      · exact hlt
      · exact lt_trans hlt (hd e he)
    · simp only [Memory.insert, hlt, if_false]
      refine List.pairwise_cons.2 ⟨?_, ih⟩
      intro e he
      rcases Memory.mem_insert.1 he with rfl | he
      · exact lt_of_le_of_ne (not_lt.1 hlt) (ha d (by simp))
      · exact hd e he

/-- A write keeps the canonical form. -/
theorem Memory.write_wf {m : Memory} (h : Memory.wf m) (a : Nat) (b : Byte) :
    Memory.wf (Memory.write m a b) := by
  obtain ⟨hs, hf⟩ := h
  have hs' := hs.filter fun c => c.1 != a
  have hf' : ∀ c ∈ m.filter (fun c => c.1 != a), c.2 ≠ Memory.fill :=
    fun c hc => hf c (List.mem_filter.1 hc).1
  unfold Memory.write
  by_cases hb : b = Memory.fill
  · simpa [hb] using ⟨hs', by simpa using hf'⟩
  · simp only [hb, if_false]
    refine ⟨Memory.pairwise_insert hs' (Memory.not_listed_filter m a), fun c hc => ?_⟩
    rcases Memory.mem_insert.1 hc with rfl | hc
    · exact hb
    · exact hf' c hc

/-- A write below the capacity keeps every entry below it. -/
theorem Memory.write_within {m : Memory} {n a : Nat} (h : Memory.within n m) (ha : a < n) (b : Byte) :
    Memory.within n (Memory.write m a b) := by
  intro c hc
  unfold Memory.write at hc
  by_cases hb : b = Memory.fill
  · simp only [hb, if_true] at hc
    exact h c (List.mem_filter.1 hc).1
  · simp only [hb, if_false] at hc
    rcases Memory.mem_insert.1 hc with rfl | hc
    · exact ha
    · exact h c (List.mem_filter.1 hc).1

/-- The empty memory, which reset has, is canonical. -/
theorem Memory.nil_wf : Memory.wf [] := by decide

/-- The memory of an image is canonical, whatever the image. -/
theorem Memory.ofImage_wf (n : Nat) (image : Nat → Byte) : Memory.wf (Memory.ofImage n image) := by
  constructor
  · refine List.Pairwise.filterMap _ ?_ List.pairwise_lt_range
    intro a a' h c hc d hd
    by_cases ha : image a = Memory.fill <;> by_cases ha' : image a' = Memory.fill <;> simp_all
    subst hc hd
    exact h
  · intro c hc
    obtain ⟨a, -, ha⟩ := List.mem_filterMap.1 hc
    by_cases hf : image a = Memory.fill <;> simp_all
    subst ha
    exact hf

/-- The memory of an image has no entry past the capacity. -/
theorem Memory.ofImage_within (n : Nat) (image : Nat → Byte) : Memory.within n (Memory.ofImage n image) := by
  intro c hc
  obtain ⟨a, ha, hc⟩ := List.mem_filterMap.1 hc
  by_cases hf : image a = Memory.fill
  · simp [hf] at hc
  · simp only [hf, if_false, Option.some.injEq] at hc
    subst hc
    exact List.mem_range.1 ha

/-! ### The registry -/

theorem Registry.mem_insert {id : Byte} {h : Handler} {g : Registry} {e : Byte × Handler} :
    e ∈ Registry.insert id h g ↔ e = (id, h) ∨ e ∈ g := by
  induction g with
  | nil => simp [Registry.insert]
  | cons d g ih =>
    by_cases hlt : id.toNat < d.1.toNat
    · simp [Registry.insert, hlt]
    · simp only [Registry.insert, hlt, if_false, List.mem_cons, ih]
      tauto

/-- A registration keeps the registry's canonical form. -/
theorem Registry.register_wf {g : Registry} (hg : Registry.wf g) (id : Byte) (h : Handler) :
    Registry.wf (Registry.register g id h) := by
  have key : ∀ t : Registry, Registry.wf t → (∀ e ∈ t, e.1 ≠ id) → Registry.wf (Registry.insert id h t) := by
    intro t
    induction t with
    | nil => intros; simp [Registry.insert]
    | cons d t ih =>
      intro ht hid
      obtain ⟨hd, ht'⟩ := List.pairwise_cons.1 ht
      have ih := ih ht' fun e he => hid e (by simp [he])
      by_cases hlt : id.toNat < d.1.toNat
      · simp only [Registry.insert, hlt, if_true]
        refine List.pairwise_cons.2 ⟨?_, ht⟩
        intro e he
        rcases List.mem_cons.1 he with rfl | he
        · exact hlt
        · exact lt_trans hlt (hd e he)
      · simp only [Registry.insert, hlt, if_false]
        refine List.pairwise_cons.2 ⟨?_, ih⟩
        intro e he
        rcases Registry.mem_insert.1 he with rfl | he
        · refine lt_of_le_of_ne (not_lt.1 hlt) fun hc => hid d (by simp) (BitVec.eq_of_toNat_eq hc)
        · exact hd e he
  refine key _ (hg.filter _) ?_
  intro e he
  simpa using (List.mem_filter.1 he).2

end Sys2Proof.Machine
end

