-- ==== Sys2Proof/Laws/Ops.lean ====
section
/-! SUPPORT. One lemma for each shared operation that says once everything it can do; the provers cite these instead of
unfolding the operations. -/

namespace Sys2Proof.Machine

/-! ## Arithmetic and bytes -/

theorem addWrap_toNat (a b : Word) : (addWrap a b).toNat = (a.toNat + b.toNat) % 65536 := by
  simp [addWrap]

theorem addWrap_eq_add (a b : Word) : addWrap a b = a + b := by
  apply BitVec.eq_of_toNat_eq
  rw [addWrap_toNat, BitVec.toNat_add]

theorem addressOf_sub_two {v : Word} (h : 2 ≤ addressOf v) : addressOf (v - 2#16) = addressOf v - 2 := by
  unfold addressOf at *
  rw [BitVec.toNat_sub_of_le (by simpa [BitVec.le_def] using h)]
  rfl

/-- The address `Pop` reads at once its underflow test has passed (R106). -/
theorem State.addressOf_sp_sub_two {s : State} (h : 2 ≤ s.spAddr) :
    addressOf (s.getReg .sp - 2#16) = s.spAddr - 2 :=
  addressOf_sub_two h

/-- The capacity never exceeds 64 KiB (R11). -/
theorem State.capacity_le (s : State) : s.capacity ≤ 65536 := by
  have := s.cfg.memKib.isLt
  simp only [State.capacity, Config.capacity]
  omega

/-- Splitting a word and joining its bytes gives it back, under both orders (R55). -/
@[simp] theorem joinBytes_split (o : ByteOrder) (v : Word) :
    joinBytes o (firstByte o v) (secondByte o v) = v := by
  cases o <;> exact (word_eq_append v).symm

@[simp] theorem firstByte_joinBytes (o : ByteOrder) (b c : Byte) : firstByte o (joinBytes o b c) = b := by
  cases o
  · exact opcodeByte_append b c
  · exact operandByte_append c b

@[simp] theorem secondByte_joinBytes (o : ByteOrder) (b c : Byte) : secondByte o (joinBytes o b c) = c := by
  cases o
  · exact operandByte_append b c
  · exact opcodeByte_append c b

/-! ## Memory operations -/

theorem memRead16_in {s : State} {a : Nat} (h : a + 1 < s.capacity) :
    memRead16 a s = .ok (s.wordAt a) s := by
  simp [memRead16, h]

theorem memRead16_out {s : State} {a : Nat} (h : s.capacity ≤ a + 1) :
    memRead16 a s = .raised (.outOfBoundsAccess a) s := by
  simp [memRead16, h]

theorem memWrite16_in {s : State} {a : Nat} (v : Word) (h : a + 1 < s.capacity) :
    memWrite16 a v s = .ok () (s.storeWord a v) := by
  simp [memWrite16, h]

theorem memWrite16_out {s : State} {a : Nat} (v : Word) (h : s.capacity ≤ a + 1) :
    memWrite16 a v s = .raised (.outOfBoundsAccess a) s := by
  simp [memWrite16, h]

theorem memWrite_in {s : State} {a : Nat} (b : Byte) (h : a < s.capacity) :
    memWrite a b s = .ok () (s.setMem (Memory.write s.mem a b)) := by
  simp [memWrite, h]

theorem memWrite_out {s : State} {a : Nat} (b : Byte) (h : s.capacity ≤ a) :
    memWrite a b s = .raised (.outOfBoundsAccess a) s := by
  simp [memWrite, h]

/-- A stored word reads back (R64 (a) for a word, with no check). -/
@[simp] theorem State.wordAt_storeWord_self (s : State) (a : Nat) (v : Word) :
    (s.storeWord a v).wordAt a = v := by
  have h : Memory.read (s.storeWord a v).mem a = firstByte s.cfg.byteOrder v := by
    rw [State.storeWord_mem, Memory.read_write_of_ne _ _ (by omega), Memory.read_write_self]
  have h' : Memory.read (s.storeWord a v).mem (a + 1) = secondByte s.cfg.byteOrder v := by
    rw [State.storeWord_mem, Memory.read_write_self]
  rw [State.wordAt, h, h', State.storeWord_cfg, joinBytes_split]

/-- A stored word leaves every byte outside its two (R64 (b)). -/
theorem State.read_storeWord_of_ne (s : State) {a c : Nat} (v : Word) (h : c ≠ a) (h' : c ≠ a + 1) :
    Memory.read (s.storeWord a v).mem c = Memory.read s.mem c := by
  rw [State.storeWord_mem, Memory.read_write_of_ne _ _ h', Memory.read_write_of_ne _ _ h]

/-! ## Stack -/

theorem push_in {s : State} (v : Word) (h : s.spAddr + 1 < s.capacity) :
    push v s = .ok () ((s.storeWord s.spAddr v).setReg .sp (addWrap (s.getReg .sp) 2#16)) := by
  simp [push, memWrite16_in v h]

theorem push_out {s : State} (v : Word) (h : s.capacity ≤ s.spAddr + 1) :
    push v s = .raised (.outOfBoundsAccess s.spAddr) s := by
  simp [push, memWrite16_out v h]

theorem pop_underflow {s : State} (h : s.spAddr < 2) : pop s = .raised .stackUnderflow s := by
  rw [pop, if_pos (show belowTwo (s.getReg .sp) from h)]

theorem pop_in {s : State} (h : 2 ≤ s.spAddr) (h' : s.spAddr - 1 < s.capacity) :
    pop s = .ok (s.wordAt (s.spAddr - 2)) (s.setReg .sp (s.getReg .sp - 2#16)) := by
  rw [pop, if_neg (show ¬ belowTwo (s.getReg .sp) from not_lt.2 h)]
  simp only [State.spAddr_setReg_sp, State.addressOf_sp_sub_two h]
  rw [memRead16_in (by rw [State.setReg_capacity]; omega), State.setReg_wordAt]

theorem pop_out {s : State} (h : 2 ≤ s.spAddr) (h' : s.capacity ≤ s.spAddr - 1) :
    pop s = .raised (.outOfBoundsAccess (s.spAddr - 2)) (s.setReg .sp (s.getReg .sp - 2#16)) := by
  rw [pop, if_neg (show ¬ belowTwo (s.getReg .sp) from not_lt.2 h)]
  simp only [State.spAddr_setReg_sp, State.addressOf_sp_sub_two h]
  rw [memRead16_out (by rw [State.setReg_capacity]; omega)]

/-- Everything `Push` can do (R105). -/
theorem push_cases (v : Word) (s : State) :
    (s.spAddr + 1 < s.capacity ∧
      push v s = .ok () ((s.storeWord s.spAddr v).setReg .sp (addWrap (s.getReg .sp) 2#16))) ∨
    (s.capacity ≤ s.spAddr + 1 ∧
      push v s = .raised (.outOfBoundsAccess s.spAddr) s) := by
  by_cases h : s.spAddr + 1 < s.capacity
  · exact .inl ⟨h, push_in v h⟩
  · exact .inr ⟨not_lt.1 h, push_out v (not_lt.1 h)⟩

/-- Everything `Pop` can do (R106). -/
theorem pop_cases (s : State) :
    (s.spAddr < 2 ∧ pop s = .raised .stackUnderflow s) ∨
    (2 ≤ s.spAddr ∧ s.capacity ≤ s.spAddr - 1 ∧
      pop s = .raised (.outOfBoundsAccess (s.spAddr - 2)) (s.setReg .sp (s.getReg .sp - 2#16))) ∨
    (2 ≤ s.spAddr ∧ s.spAddr - 1 < s.capacity ∧
      pop s = .ok (s.wordAt (s.spAddr - 2)) (s.setReg .sp (s.getReg .sp - 2#16))) := by
  by_cases h : s.spAddr < 2
  · exact .inl ⟨h, pop_underflow h⟩
  · by_cases h' : s.spAddr - 1 < s.capacity
    · exact .inr (.inr ⟨not_lt.1 h, h', pop_in (not_lt.1 h) h'⟩)
    · exact .inr (.inl ⟨not_lt.1 h, not_lt.1 h', pop_out (not_lt.1 h) (not_lt.1 h')⟩)

/-! ## The first phases of a step -/

theorem fetch_in {s : State} (h : s.pcAddr + 1 < s.capacity) :
    fetch s = .ok (s.wordAt s.pcAddr) s :=
  memRead16_in h

theorem fetch_out {s : State} (h : s.capacity ≤ s.pcAddr + 1) :
    fetch s = .raised (.outOfBoundsAccess s.pcAddr) s :=
  memRead16_out h

theorem decodeFetched_ok {s : State} {w : Word} {i : Instr} (h : decode s.cfg.encoding w = .ok i) :
    decodeFetched s w = .ok i := by
  simp [decodeFetched, h]

/-- The decoder's only error carries the word it was given (R90, R161). -/
theorem decode_error {e : Encoding} {w : Word} (h : ∀ i, decode e w ≠ .ok i) :
    decode e w = .error (.invalidOpcode w) := by
  have key : ∀ o : Option Instr, (∀ i, orInvalid w o ≠ .ok i) → orInvalid w o = .error (.invalidOpcode w) := by
    intro o ho
    cases o with
    | none => rfl
    | some i => exact absurd rfl (ho i)
  unfold decode at h ⊢
  split <;> rename_i ho <;> simp only [ho] at h <;>
    first
    | rfl
    | exact absurd rfl (h _)
    | exact key _ h

theorem decodeFetched_error {s : State} {w : Word} (h : ∀ i, decode s.cfg.encoding w ≠ .ok i) :
    decodeFetched s w = .error (.invalidOpcode w) := by
  simp [decodeFetched, decode_error h]

/-! ## Handlers and the host -/

/-- What an action of the host or of a handler never touches: the parameters, the registry, the last answer, the free
value's counter (R143). -/
theorem hostAct_keeps (a : HostAction) (s : State) :
    (hostAct a s).state.cfg = s.cfg ∧ (hostAct a s).state.sig = s.sig ∧
    (hostAct a s).state.result = s.result ∧ (hostAct a s).state.draws = s.draws := by
  cases a with
  | setReg r v => exact ⟨rfl, rfl, rfl, rfl⟩
  | write addr b => simp only [hostAct, memWrite]; split <;> exact ⟨rfl, rfl, rfl, rfl⟩
  | write16 addr v => simp only [hostAct, memWrite16]; split <;> exact ⟨rfl, rfl, rfl, rfl⟩
  | setHalted h => exact ⟨rfl, rfl, rfl, rfl⟩
  | push v => rcases push_cases v s with ⟨-, h⟩ | ⟨-, h⟩ <;> simp [hostAct, h]
  | pop => rcases pop_cases s with ⟨-, h⟩ | ⟨-, -, h⟩ | ⟨-, -, h⟩ <;> simp [hostAct, h]

/-- What a script never touches. -/
theorem runScript_keeps (script : List HostAction) (s : State) :
    (runScript script s).cfg = s.cfg ∧ (runScript script s).sig = s.sig ∧
    (runScript script s).result = s.result ∧ (runScript script s).draws = s.draws := by
  induction script generalizing s with
  | nil => exact ⟨rfl, rfl, rfl, rfl⟩
  | cons a rest ih =>
    obtain ⟨h1, h2, h3, h4⟩ := hostAct_keeps a s
    obtain ⟨i1, i2, i3, i4⟩ := ih (hostAct a s).state
    exact ⟨i1.trans h1, i2.trans h2, i3.trans h3, i4.trans h4⟩

end Sys2Proof.Machine
end

