-- ==== Sys2Proof/Laws/PerInstr.lean ====
section
/-! SUPPORT. One family of statements about instructions as syntax, made instruction by instruction: the operand byte of the
canonical encoding is read back by the operand form of the instruction's own row (R82, R91). -/

namespace Sys2Proof.Laws.OperandReadsBack

/-- What the decoder's operand form reads from the canonical operand byte (R82). -/
def Statement (i : Instr) : Prop :=
  ∀ e : Encoding, e.wf →
    match i with
    | .nop | .addStack => encodeOperand e i = 0#8
    | .push b | .signal b => encodeOperand e i = b
    | .popReg r | .pushReg r | .jmp r => e.regAt (encodeOperand e i).toNat = some r
    | .addReg r1 r2 =>
      e.regAt (highNibble (encodeOperand e i)).toNat = some r1 ∧
      e.regAt (lowNibble (encodeOperand e i)).toNat = some r2

theorem nop : Statement .nop := fun _ _ => rfl

theorem push (imm8 : Byte) : Statement (.push imm8) := fun _ _ => rfl

/-- A register number survives the widening to the operand byte. -/
theorem reg_in_byte {e : Encoding} (h : e.wf) (r : Reg) : e.regAt ((e.num r).setWidth 8).toNat = some r := by
  rw [BitVec.toNat_setWidth_of_le (by omega), Encoding.regAt_num h]

/-- A register number survives the widening to a nibble. -/
theorem reg_in_nibble {e : Encoding} (h : e.wf) (r : Reg) : e.regAt ((e.num r).setWidth 4).toNat = some r := by
  rw [BitVec.toNat_setWidth_of_le (by omega), Encoding.regAt_num h]

theorem popReg (r : Reg) : Statement (.popReg r) := fun _ h => reg_in_byte h r

theorem pushReg (r : Reg) : Statement (.pushReg r) := fun _ h => reg_in_byte h r

theorem addStack : Statement .addStack := fun _ _ => rfl

theorem addReg (r1 r2 : Reg) : Statement (.addReg r1 r2) := by
  intro e h
  simp only [encodeOperand, highNibble_append, lowNibble_append]
  exact ⟨reg_in_nibble h r1, reg_in_nibble h r2⟩

theorem signal (id : Byte) : Statement (.signal id) := fun _ _ => rfl

theorem jmp (r : Reg) : Statement (.jmp r) := fun _ h => reg_in_byte h r

end Sys2Proof.Laws.OperandReadsBack
end

