-- ==== Sys2Proof/Laws/Step.lean ====
section
/-! SUPPORT. The inversion of a step and of each meaning: everything they can answer, said once. -/

namespace Sys2Proof.Machine

/-! ## What an update leaves -/

theorem State.keepsBytesBut_storeWord (s : State) (a : Nat) (v : Word) : s.KeepsBytesBut a 2 (s.storeWord a v) :=
  fun _ _ => State.read_storeWord_of_ne _ _ (by omega) (by omega)

theorem State.keepsBytesBut_write (s : State) (a : Nat) (b : Byte) :
    s.KeepsBytesBut a 1 (s.setMem (Memory.write s.mem a b)) :=
  fun _ _ => Memory.read_write_of_ne _ _ (by omega)

theorem State.keepsRegsBut_setReg (s : State) (r : Reg) (v : Word) : s.KeepsRegsBut [r] (s.setReg r v) :=
  fun _ h => State.getReg_setReg_of_ne _ _ (by simpa using h)

/-! ## The step -/

theorem step_fetch_out {s : State} (h : s.capacity ≤ s.pcAddr + 1) :
    step s = .next (s.answer (.err (.outOfBoundsAccess s.pcAddr))) := by
  simp only [step, fetch_out h, State.raise]

theorem step_invalid {s : State} (h : s.pcAddr + 1 < s.capacity)
    (hd : ∀ i, decode s.cfg.encoding (s.wordAt s.pcAddr) ≠ .ok i) :
    step s = .next ((advance s).answer (.err (.invalidOpcode (s.wordAt s.pcAddr)))) := by
  simp only [step, fetch_in h]
  rw [decodeFetched_error (s := advance s) hd]
  rfl

theorem step_fetches {s : State} {i : Instr} (h : s.Fetches i) : step s = exec i (advance s) := by
  simp only [step, fetch_in h.1]
  rw [decodeFetched_ok (s := advance s) h.2]

/-- The three things a step can be (R100): a failed fetch, a failed decode, an instruction. -/
theorem step_cases (s : State) :
    (s.capacity ≤ s.pcAddr + 1 ∧ step s = .next (s.answer (.err (.outOfBoundsAccess s.pcAddr)))) ∨
    (s.pcAddr + 1 < s.capacity ∧ (∀ i, decode s.cfg.encoding (s.wordAt s.pcAddr) ≠ .ok i) ∧
      step s = .next ((advance s).answer (.err (.invalidOpcode (s.wordAt s.pcAddr))))) ∨
    ∃ i, s.Fetches i ∧ step s = exec i (advance s) := by
  by_cases h : s.pcAddr + 1 < s.capacity
  · by_cases hd : ∃ i, decode s.cfg.encoding (s.wordAt s.pcAddr) = .ok i
    · obtain ⟨i, hi⟩ := hd
      exact .inr (.inr ⟨i, ⟨h, hi⟩, step_fetches ⟨h, hi⟩⟩)
    · have hd' : ∀ i, decode s.cfg.encoding (s.wordAt s.pcAddr) ≠ .ok i := fun i hi => hd ⟨i, hi⟩
      exact .inr (.inl ⟨h, hd', step_invalid h hd'⟩)
  · exact .inl ⟨not_lt.1 h, step_fetch_out (not_lt.1 h)⟩

/-- Everything the shared body of PUSH and PUSHREG can answer. -/
theorem push_finish_cases (v : Word) (s : State) :
    (s.spAddr + 1 < s.capacity ∧ (push v s).finish =
      .next (((s.storeWord s.spAddr v).setReg .sp (addWrap (s.getReg .sp) 2#16)).answer .ok)) ∨
    (s.capacity ≤ s.spAddr + 1 ∧
      (push v s).finish = .next (s.answer (.err (.outOfBoundsAccess s.spAddr)))) := by
  rcases push_cases v s with ⟨h, hp⟩ | ⟨h, hp⟩
  · exact .inl ⟨h, by rw [hp, Ran.finish_ok]⟩
  · exact .inr ⟨h, by rw [hp, Ran.finish_raised]⟩

/-- Everything POPREG can answer (R122). -/
theorem execPopReg_cases (r : Reg) (s : State) :
    (s.spAddr < 2 ∧ execPopReg r s = .next (s.answer (.err .stackUnderflow))) ∨
    (2 ≤ s.spAddr ∧ s.capacity ≤ s.spAddr - 1 ∧ execPopReg r s = .next ((s.setReg .sp (s.getReg .sp - 2#16)).answer
      (.err (.outOfBoundsAccess (s.spAddr - 2))))) ∨
    (2 ≤ s.spAddr ∧ s.spAddr - 1 < s.capacity ∧ execPopReg r s =
      .next (((s.setReg .sp (s.getReg .sp - 2#16)).setReg r (s.wordAt (s.spAddr - 2))).answer .ok)) := by
  rcases pop_cases s with ⟨h, hp⟩ | ⟨h, h', hp⟩ | ⟨h, h', hp⟩
  · exact .inl ⟨h, by simp [execPopReg, hp]⟩
  · exact .inr (.inl ⟨h, h', by simp [execPopReg, hp]⟩)
  · exact .inr (.inr ⟨h, h', by simp [execPopReg, hp]⟩)

/-- Everything ADDSTACK can answer (R130): the three errors in the order they can occur, or the sum in place of the lower
word. -/
theorem execAddStack_cases (s : State) :
    (s.spAddr < 2 ∧ execAddStack s = .next (s.answer (.err .stackUnderflow))) ∨
    (2 ≤ s.spAddr ∧ s.capacity ≤ s.spAddr - 1 ∧ execAddStack s = .next ((s.setReg .sp (s.getReg .sp - 2#16)).answer
      (.err (.outOfBoundsAccess (s.spAddr - 2))))) ∨
    (2 ≤ s.spAddr ∧ s.spAddr < 4 ∧ s.spAddr - 1 < s.capacity ∧ execAddStack s =
      .next ((s.setReg .sp (s.getReg .sp - 2#16)).answer (.err .stackUnderflow))) ∨
    (4 ≤ s.spAddr ∧ s.spAddr - 1 < s.capacity ∧ execAddStack s =
      .next (((s.storeWord (s.spAddr - 4)
        (addWrap (s.wordAt (s.spAddr - 4)) (s.wordAt (s.spAddr - 2)))).setReg .sp (s.getReg .sp - 2#16)).answer .ok)) := by
  rcases pop_cases s with ⟨h, hp⟩ | ⟨h, h', hp⟩ | ⟨h, h', hp⟩
  · exact .inl ⟨h, by simp [execAddStack, hp]⟩
  · exact .inr (.inl ⟨h, h', by simp [execAddStack, hp]⟩)
  · have hsp := State.addressOf_sp_sub_two h
    rcases pop_cases (s.setReg .sp (s.getReg .sp - 2#16)) with ⟨g, gp⟩ | ⟨g, g', gp⟩ | ⟨g, g', gp⟩ <;>
      rw [State.spAddr_setReg_sp, hsp] at g
    · exact .inr (.inr (.inl ⟨h, by omega, h', by rw [execAddStack, hp, Ran.andThen_ok, gp]; rfl⟩))
    · rw [State.spAddr_setReg_sp, hsp, State.setReg_capacity] at g'
      omega
    · refine .inr (.inr (.inr ⟨by omega, h', ?_⟩))
      have hsp2 : addressOf (s.getReg .sp - 2#16 - 2#16) = s.spAddr - 4 := by
        rw [addressOf_sub_two (by omega), hsp]
        omega
      have hback : addWrap (s.getReg .sp - 2#16 - 2#16) 2#16 = s.getReg .sp - 2#16 := by
        rw [addWrap_eq_add, BitVec.sub_add_cancel]
      have hin : ((s.setReg .sp (s.getReg .sp - 2#16)).setReg .sp (s.getReg .sp - 2#16 - 2#16)).spAddr + 1 <
          ((s.setReg .sp (s.getReg .sp - 2#16)).setReg .sp (s.getReg .sp - 2#16 - 2#16)).capacity := by
        rw [State.spAddr_setReg_sp, hsp2]
        simp only [State.setReg_capacity]
        omega
      have hfour : s.spAddr - 2 - 2 = s.spAddr - 4 := by omega
      rw [execAddStack, hp, Ran.andThen_ok, gp, Ran.andThen_ok, State.spAddr_setReg_sp, hsp, hfour,
        State.getReg_setReg_self, push_in _ hin, Ran.finish_ok, State.spAddr_setReg_sp, hsp2,
        State.getReg_setReg_self, hback, State.setReg_wordAt]
      simp only [State.setReg, State.storeWord, State.setMem, RegFile.set_set_self]

/-- Everything a call of a handler can answer (R140, R142, R144). -/
theorem callHandler_next {id : Byte} {h : Handler} {s t : State} (ht : callHandler id h s = .next t) :
    ∃ script n, t = (runScript script (s.setDraws n)).answer .ok ∧
      ((h = .scripted script ∧ n = s.draws) ∨
        ∃ name, h = .free name ∧ n = s.draws + 1 ∧
          script = Config.freeScript name s.draws s.cfg s.x s.mem s.halted) := by
  cases h with
  | scripted script =>
    simp only [callHandler, State.returnOk, Host.Outcome.next.injEq] at ht
    exact ⟨script, s.draws, ht.symm, .inl ⟨rfl, rfl⟩⟩
  | free name =>
    simp only [callHandler, State.returnOk, Host.Outcome.next.injEq] at ht
    exact ⟨_, _, ht.symm, .inr ⟨name, rfl, rfl, rfl⟩⟩
  | breaching b => cases b <;> simp [callHandler] at ht

/-- Everything SIGNAL can answer with a next state. -/
theorem execSignal_next {id : Byte} {s t : State} (ht : execSignal id s = .next t) :
    (Registry.lookup s.sig id = none ∧ t = s.answer (.err (.unknownSignal id))) ∨
    ∃ h, Registry.lookup s.sig id = some h ∧ callHandler id h s = .next t := by
  unfold execSignal at ht
  split at ht
  · rename_i hn
    simp only [State.raise, Host.Outcome.next.injEq] at ht
    exact .inl ⟨hn, ht.symm⟩
  · rename_i h hs
    exact .inr ⟨h, hs, ht⟩

end Sys2Proof.Machine

namespace Sys2Proof

/-- An instruction writes no register but its destination and SP (R23). -/
theorem Instr.not_mem_written {i : Instr} {r : Reg} (h : r ≠ .sp) (hd : i.dest ≠ some r) :
    r ∉ i.written := by
  cases i <;> simp_all [Instr.written, Instr.dest, eq_comm]

end Sys2Proof
end

