-- ==== Sys2Proof/Tests/Slice0.lean ====
section
/-! SUPPORT. The model's own tests: the checks of WellFormed on ill-formed numberings, words written out from the encodings of
spec/30_encoding.md, single steps whose outcomes are those of spec/95_test_vectors.md (each names its vector), and for
each obligation with hypotheses a witness that meets them all. -/

namespace Sys2Proof.Tests

open Sys2Proof.Machine

/-! ## Helpers -/

/-- The state a step answers with, if it answers with one. -/
def nextState : Outcome → Option State
  | .next s => some s
  | .fault _ => none
  | .refused _ => none

/-- Reset with PC, SP and memory set. -/
def at' (pc sp : Word) (mem : Memory) : State :=
  { State.reset with x := { State.reset.x with pc := pc, sp := sp }, mem := mem }

/-- The same with `MEM_KIB = 64`. -/
def full (pc sp : Word) (mem : Memory) : State :=
  { at' pc sp mem with cfg := { Config.reference with memKib := 64 } }

/-- The same under `BYTE_ORDER = LE`. -/
def little (pc sp : Word) (mem : Memory) : State :=
  { at' pc sp mem with cfg := { Config.reference with byteOrder := .le } }

/-- A machine at 0x000A whose word there is SIGNAL `id`, with one handler registered for the id 3. -/
def signalling (id : Byte) (h : Handler) : State :=
  { at' 0x000A 0x40 [(0x0A, 0x06), (0x0B, id)] with sig := [(3, h)] }

/-- A numbering of R12 that is not the reference one. -/
def otherNumbering : Encoding :=
  { Encoding.reference with opcNop := 0x10, opcJmp := 0x00, regA := 7, regFL := 0 }

/-! ## WellFormed: an ill-formed term for each check -/

theorem test_reference_numbering_wf : Encoding.reference.wf := by decide
theorem test_other_numbering_wf : otherNumbering.wf := by decide
theorem test_equal_opcodes_refused : ¬ ({ Encoding.reference with opcNop := 0x07 } : Encoding).opcodesDistinct := by decide
theorem test_opcode_F0_refused : ¬ ({ Encoding.reference with opcJmp := 0xF0 } : Encoding).leavesF0Unmapped := by decide
theorem test_equal_registers_refused : ¬ ({ Encoding.reference with regFL := 0 } : Encoding).registersDistinct := by decide
theorem test_unsorted_memory_refused : ¬ Memory.wf [(5, 1), (4, 1)] := by decide
theorem test_listed_fill_refused : ¬ Memory.wf [(5, 0)] := by decide
theorem test_entry_past_capacity_refused : ¬ Memory.within 8192 [(8192, 1)] := by decide
theorem test_repeated_id_refused : ¬ Registry.wf [(3, .free 0), (3, .free 1)] := by decide

/-! ## Decoding: words written out bit by bit from the patterns of R84 -/

theorem test_decode_nop : decodeTableWord 16 0b0000000011111111 = some .nop := by decide
theorem test_decode_push : decodeTableWord 16 0b0000000111111111 = some (.push 255) := by decide
theorem test_decode_popReg : decodeTableWord 16 0b0000001000000100 = some (.popReg .sp) := by decide
theorem test_decode_pushReg : decodeTableWord 16 0b0000001100000110 = some (.pushReg .bp) := by decide
theorem test_decode_addStack : decodeTableWord 16 0b0000010010101011 = some .addStack := by decide
theorem test_decode_addReg : decodeTableWord 16 0b0000010101010001 = some (.addReg .pc .b) := by decide
theorem test_decode_signal : decodeTableWord 16 0b0000011010101011 = some (.signal 0xAB) := by decide
theorem test_decode_jmp : decodeTableWord 16 0b0000011100000011 = some (.jmp .m) := by decide
theorem test_reject_register_eight : decodeTableWord 16 0b0000011100010000 = none := by decide
theorem test_reject_nibble_eight : decodeTableWord 16 0b0000010100001000 = none := by decide
theorem test_reject_opcode_eight : decodeTableWord 16 0b0000100000000000 = none := by decide

/-! ## Memory (vectors M6, M10) -/

theorem test_M6_no_partial_write : (hostAct (.write16 8191 0xBEEF) State.reset).state.mem = [] := by decide
theorem test_M10_big : (runScript [.write16 0x10 0x1234, .write16 0x11 0xABCD] (at' 0 0 [])).wordAt 0x10 = 0x12AB := by
  decide
theorem test_M10_little :
    (runScript [.write16 0x10 0x1234, .write16 0x11 0xABCD] (little 0 0 [])).wordAt 0x10 = 0xCD34 := by decide

/-! ## The step (vectors T5, T7, T11, T12) -/

theorem test_T5_pc_wraps : (nextState (step (full 0xFFFE 0 []))).map (fun t => (t.getReg .pc, t.result)) =
    some (0, .ok) := by decide
theorem test_T7_invalid_opcode : (nextState (step (at' 0x20 6 [(0x20, 0xF0)]))).map
    (fun t => (t.getReg .pc, t.getReg .sp, t.result)) = some (0x22, 6, .err (.invalidOpcode 0xF000)) := by decide
theorem test_T11_odd_pc_big : (nextState (step (at' 0x11 0 [(0x11, 0x01), (0x12, 0x0A)]))).map
    (fun t => (t.wordAt 0, t.getReg .sp, t.getReg .pc)) = some (0x000A, 2, 0x13) := by decide
theorem test_T12_odd_pc_little : (nextState (step (little 0x11 0 [(0x10, 0x01), (0x13, 0x0A)]))).map
    (fun t => (t.getReg .sp, t.getReg .pc)) = some (0, 0x13) := by decide

/-! ## The instructions -/

theorem test_K2_nop : (nextState (step (at' 0x10 0 [(0x11, 0xFF)]))).map (fun t => (t.getReg .pc, t.result)) =
    some (0x12, .ok) := by decide
theorem test_K4_push : (nextState (step (at' 0x20 4 [(0x20, 0x01), (0x21, 0xFF)]))).map
    (fun t => (t.wordAt 4, t.getReg .sp, t.getReg .pc)) = some (0x00FF, 6, 0x22) := by decide
theorem test_K6_push_out : (nextState (step (at' 0x20 0x1FFF [(0x20, 0x01), (0x21, 0x01)]))).map
    (fun t => (Memory.read t.mem 0x1FFF, t.getReg .sp, t.getReg .pc, t.result)) =
    some (0, 0x1FFF, 0x22, .err (.outOfBoundsAccess 0x1FFF)) := by decide
theorem test_K17_popReg_sp : (nextState (step (at' 0x30 6 [(0x05, 0x80), (0x30, 0x02), (0x31, 0x04)]))).map
    (fun t => (t.getReg .sp, t.getReg .pc)) = some (0x0080, 0x32) := by decide
theorem test_K15_popReg_out : (nextState (step (at' 0x30 0x2001 [(0x30, 0x02)]))).map
    (fun t => (t.getReg .sp, t.getReg .a, t.result)) = some (0x1FFF, 0, .err (.outOfBoundsAccess 0x1FFF)) := by decide
theorem test_K22_pushReg_sp : (nextState (step (at' 0x40 0x100 [(0x40, 0x03), (0x41, 0x04)]))).map
    (fun t => (t.wordAt 0x100, t.getReg .sp)) = some (0x0100, 0x102) := by decide
theorem test_K23_pushReg_pc : (nextState (step (at' 0x40 0x100 [(0x40, 0x03), (0x41, 0x05)]))).map
    (fun t => (t.wordAt 0x100, t.getReg .pc)) = some (0x0042, 0x42) := by decide
theorem test_A13_addStack : (nextState (step (at' 0x50 0x2000 [(0x50, 0x04), (0x1FFC, 0x01), (0x1FFF, 0x23)]))).map
    (fun t => (t.wordAt 0x1FFC, t.wordAt 0x1FFE, t.getReg .sp)) = some (0x0123, 0x0023, 0x1FFE) := by decide
theorem test_A10_addStack_second_pop : (nextState (step (at' 0x50 3 [(0x50, 0x04)]))).map
    (fun t => (t.getReg .sp, t.getReg .pc, t.result)) = some (1, 0x52, .err .stackUnderflow) := by decide
theorem test_G7_addReg_pc_pc : (nextState (step (at' 0x0A 0 [(0x0A, 0x05), (0x0B, 0x55)]))).map
    (fun t => t.getReg .pc) = some 0x0018 := by decide
theorem test_G9_addReg_sp : (nextState (step { at' 0x0A 0x10 [(0x0A, 0x05), (0x0B, 0x41)] with
    x := { State.reset.x with pc := 0x0A, sp := 0x10, b := 0xFFFE } })).map
    (fun t => (t.getReg .sp, t.getReg .b, t.getReg .pc)) = some (0x000E, 0xFFFE, 0x0C) := by decide
theorem test_X6_signal_pushes : (nextState (step (signalling 3 (.scripted [.push 0x00AA])))).map
    (fun t => (t.wordAt 0x40, t.getReg .sp, t.getReg .pc, t.result)) = some (0x00AA, 0x42, 0x0C, .ok) := by decide
theorem test_X5_signal_unknown : (nextState (step (signalling 4 (.scripted [.setHalted true])))).map
    (fun t => (t.halted, t.getReg .pc, t.result)) = some (false, 0x0C, .err (.unknownSignal 4)) := by decide
theorem test_J2_jmp_unchecked : (nextState (step { at' 4 0 [(4, 0x07), (5, 0x01)] with
    x := { State.reset.x with pc := 4, b := 0x2000 } })).map
    (fun t => (t.getReg .pc, t.result)) = some (0x2000, .ok) := by decide
theorem test_J5_jmp_pc : (nextState (step (at' 4 0 [(4, 0x07), (5, 0x05)]))).map (fun t => t.getReg .pc) = some 6 := by
  decide

/-! ## The host (vector X7) and the placed word -/

theorem test_X7_reregistration : Registry.lookup
    (Registry.register (Registry.register [] 4 (.scripted [.setReg .a 1])) 4 (.scripted [.setReg .a 2])) 4 =
    some (.scripted [.setReg .a 2]) := by decide
theorem test_placed_word_runs : (nextState (step (State.reset.withFetchWord 16 0x010A))).map
    (fun t => (t.wordAt 0, t.getReg .sp, t.getReg .pc, t.result)) = some (0x000A, 2, 2, .ok) := by decide

/-! ## Witnesses: a concrete input that meets every hypothesis of the obligation (and of each of its clauses) -/

theorem fetches_of {s : State} {i : Instr} (h : s.pcAddr + 1 < s.capacity)
    (d : decode s.cfg.encoding (s.wordAt s.pcAddr) = .ok i) : s.Fetches i := ⟨h, d⟩

theorem not_ok_of {e : Encoding} {w : Word} (h : decode e w = .error (.invalidOpcode w)) : ∀ i, decode e w ≠ .ok i := by
  intro i hi
  rw [h] at hi
  cases hi

theorem fetched_eq {s : State} {i j : Instr} (h : s.Fetches i) (g : s.Fetches j) : i = j := by
  have := h.2.symm.trans g.2
  cases this
  rfl

theorem no_call {s : State} {i : Instr} (h : ∀ id, i ≠ .signal id) : ¬ i.CallsHandler s := by
  rintro ⟨id, _, hi, _⟩
  exact h id hi

/-- PUSH 10 at 0x20 with SP = 4. -/
def pushing : State := at' 0x20 4 [(0x20, 0x01), (0x21, 0x0A)]

theorem pushing_fetches : pushing.Fetches (.push 10) := fetches_of (by decide) (by decide)

theorem pushing_calls_no_handler (i : Instr) (h : pushing.Fetches i) : ¬ i.CallsHandler pushing := by
  rw [fetched_eq h pushing_fetches]
  exact no_call (by intro id h; cases h)

theorem pushing_steps : ∃ t, step pushing = .next t ∧ t.result = .ok := by
  rw [step_fetches pushing_fetches]
  rcases push_finish_cases (zext16 10) (advance pushing) with ⟨-, h⟩ | ⟨h, -⟩
  · exact ⟨_, h, rfl⟩
  · exact absurd h (by decide)

theorem witness_EncodeThenDecodeGivesInstruction : Encoding.reference.wf ∧ otherNumbering.wf := by decide
theorem witness_DecodeThenEncodeGivesWord :
    Encoding.reference.wf ∧ decode Encoding.reference 0x0577 = .ok (.addReg .fl .fl) := by decide
theorem witness_DecodeThenEncodeGivesWord_ignored_byte :
    Encoding.reference.wf ∧ decode Encoding.reference 0x04AB = .ok .addStack := by decide
theorem witness_HighByteOutsideTheEightIsInvalidOpcode :
    (∀ o ∈ Op.all, Encoding.reference.opcode o ≠ opcodeByte 0x0800) ∧ 8 ≤ (opcodeByte 0x0800).toNat ∧
    otherNumbering.wf ∧ opcodeByte 0xF000 = 0xF0#8 := by decide
theorem witness_DecodeSucceedsExactlyOnLegalWords :
    Encoding.reference.wf ∧ ∀ i, decode Encoding.reference 0x0208 ≠ .ok i :=
  ⟨by decide, not_ok_of (by decide)⟩
theorem witness_StepRunsFetchedInstruction : pushing.Fetches (.push 10) := pushing_fetches
theorem witness_FailedFetchChangesNothingAndRepeats :
    (at' 0x1FFF 0 []).capacity ≤ (at' 0x1FFF 0 []).pcAddr + 1 := by decide
theorem witness_FailedDecodeAdvancesPcOnly :
    (at' 0x1FFE 6 [(0x1FFE, 0xF0)]).pcAddr + 1 < (at' 0x1FFE 6 [(0x1FFE, 0xF0)]).capacity ∧
    ∀ i, decode (at' 0x1FFE 6 [(0x1FFE, 0xF0)]).cfg.encoding
      ((at' 0x1FFE 6 [(0x1FFE, 0xF0)]).wordAt (at' 0x1FFE 6 [(0x1FFE, 0xF0)]).pcAddr) ≠ .ok i :=
  ⟨by decide, not_ok_of (by decide)⟩
theorem witness_FetchSeesLatestStore :
    memWrite16 (little 0x1FFE 0 []).pcAddr 0x06F0 (little 0x1FFE 0 []) =
      .ok () ((little 0x1FFE 0 []).storeWord 0x1FFE 0x06F0) := by decide
theorem witness_WordAccessAtTopAddressAlwaysFails : (full 0xFFFF 0 []).getReg .pc = 0xFFFF#16 := by decide
theorem witness_PcAndSpWrapOnlyAtTopOfFullMemory :
    addressOf ((full 0xFFFE 0 []).getReg .pc) + 1 < (full 0xFFFE 0 []).capacity ∧
    addressOf ((full 0xFFFE 0 []).getReg .pc) + 2 ≠ addressOf (addWrap ((full 0xFFFE 0 []).getReg .pc) 2#16) := by
  decide
theorem witness_MemoryOperationsFailExactlyOutOfBounds :
    8191 < State.reset.capacity ∧ State.reset.capacity ≤ 8192 ∧ 8190 + 1 < State.reset.capacity ∧
    State.reset.capacity ≤ 8191 + 1 := by decide
theorem witness_MemoryLaws_word :
    memWrite16 8190 0xBEEF State.reset = .ok () (State.reset.storeWord 8190 0xBEEF) ∧ 8189 ≠ 8190 ∧ 8189 ≠ 8190 + 1 := by
  decide
theorem witness_MemoryLaws_byte :
    memWrite 8191 0x5A State.reset = .ok () (State.reset.setMem [(8191, 0x5A)]) ∧ 8190 ≠ 8191 := by decide
theorem witness_MemoryLaws_failed :
    memWrite 8192 0x5A State.reset = .raised (.outOfBoundsAccess 8192) State.reset ∧
    memWrite16 8191 0xBEEF State.reset = .raised (.outOfBoundsAccess 8191) State.reset ∧
    memRead 8192 State.reset = .raised (.outOfBoundsAccess 8192) State.reset ∧
    memRead16 8191 State.reset = .raised (.outOfBoundsAccess 8191) State.reset := by decide
theorem witness_MemoryLaws_reads :
    memRead 8191 State.reset = .ok 0 State.reset ∧ memRead16 8190 State.reset = .ok 0 State.reset := by decide
theorem witness_OverlappingWordWritesMixBytes :
    memWrite16 0x10 0x1234 State.reset = .ok () (State.reset.storeWord 0x10 0x1234) ∧
    memWrite16 (0x10 + 1) 0xABCD (State.reset.storeWord 0x10 0x1234) =
      .ok () ((State.reset.storeWord 0x10 0x1234).storeWord (0x10 + 1) 0xABCD) := by decide
theorem witness_CanonicalMemoriesWithEqualBytesAreEqual :
    Memory.wf [(3, 1), (8, 0xFF)] ∧ Memory.wf (Memory.write [(3, 1)] 8 0xFF) ∧
    ∀ a, Memory.read [(3, 1), (8, 0xFF)] a = Memory.read (Memory.write [(3, 1)] 8 0xFF) a :=
  ⟨by decide, by decide, fun _ => by
    rw [show Memory.write [(3, 1)] 8 0xFF = [(3, 1), (8, 0xFF)] by decide]⟩
theorem witness_ConstructedMachineHoldsItsParameters :
    (8191 : Nat) < Config.reference.capacity ∧ Registry.wf [(3, .free 0)] ∧ Config.reference.encoding.wf := by decide
theorem witness_StepKeepsInvariant : pushing.Inv ∧ ∃ t, step pushing = .next t :=
  ⟨by decide, pushing_steps.imp fun _ h => h.1⟩
theorem witness_HostRequestsKeepInvariant : pushing.Inv ∧ (signalling 3 (.free 0)).Inv := by decide
theorem witness_StepKeepsParametersAndRegistry : ∃ t, step pushing = .next t := pushing_steps.imp fun _ h => h.1
theorem witness_HaltedIsNeverRead :
    pushing.Fetches (.push 10) ∧
    (∀ id n, pushing.Fetches (.signal id) → Registry.lookup pushing.sig id ≠ some (.free n)) ∧
    (∀ i, pushing.Fetches i → ¬ i.CallsHandler pushing) ∧ ∃ t, step pushing = .next t :=
  ⟨pushing_fetches, fun id n h => (by cases fetched_eq h pushing_fetches), pushing_calls_no_handler, pushing_steps.imp fun _ h => h.1⟩
theorem witness_UnnamedRegisterIsNeitherReadNorWritten :
    Reg.fl ≠ .pc ∧ Reg.fl ≠ .sp ∧ Reg.fl ∉ (Instr.addReg .a .b).named ∧ ¬ (Instr.addReg .a .b).CallsHandler pushing ∧
    ∃ t, exec (.addReg .a .b) pushing = .next t :=
  ⟨by decide, by decide, by decide, no_call (by intro id h; cases h), _, rfl⟩
theorem witness_InstructionsWriteOnlyTheirRegisters :
    ¬ (Instr.popReg .m).CallsHandler pushing ∧ ∃ t, exec (.popReg .m) pushing = .next t := by
  refine ⟨no_call (by intro id h; cases h), ?_⟩
  rcases execPopReg_cases .m pushing with ⟨-, h⟩ | ⟨-, -, h⟩ | ⟨-, -, h⟩ <;> exact ⟨_, h⟩
theorem witness_MemoryChangesOnlyWhereStored_stores :
    ¬ Instr.addStack.CallsHandler pushing ∧ Instr.addStack.storesAt pushing = some 0 ∧
    ∃ t, exec .addStack pushing = .next t ∧ t.result = .ok := by
  refine ⟨no_call (by intro id h; cases h), by decide, ?_⟩
  rcases execAddStack_cases pushing with ⟨h, -⟩ | ⟨-, h, -⟩ | ⟨-, h, -⟩ | ⟨-, -, h⟩
  · exact absurd h (by decide)
  · exact absurd h (by decide)
  · exact absurd h (by decide)
  · exact ⟨_, h, rfl⟩
theorem witness_MemoryChangesOnlyWhereStored_none :
    ¬ (Instr.jmp .b).CallsHandler pushing ∧ (Instr.jmp .b).storesAt pushing = none ∧
    ∃ t, exec (.jmp .b) pushing = .next t :=
  ⟨no_call (by intro id h; cases h), rfl, _, rfl⟩
theorem witness_MemoryChangesOnlyWhereStored_error :
    ¬ (Instr.push 1).CallsHandler (at' 0 0x1FFF []) ∧
    exec (.push 1) (at' 0 0x1FFF []) = .next ((at' 0 0x1FFF []).answer (.err (.outOfBoundsAccess 0x1FFF))) := by
  refine ⟨no_call (by intro id h; cases h), ?_⟩
  rcases push_finish_cases (zext16 1) (at' 0 0x1FFF []) with ⟨h, -⟩ | ⟨-, h⟩
  · exact absurd h (by decide)
  · exact h
theorem witness_StraightLineStackStaysBehindPc :
    pushing.spAddr ≤ pushing.pcAddr ∧ pushing.pcAddr + 2 < 65536 ∧ pushing.Fetches (.push 10) ∧
    (Instr.push 10).dest ≠ some .pc ∧ (Instr.push 10).dest ≠ some .sp ∧
    ¬ (Instr.push 10).CallsHandler pushing ∧ ∃ t, step pushing = .next t :=
  ⟨by decide, by decide, pushing_fetches, by decide, by decide,
    no_call (by intro id h; cases h), pushing_steps.imp fun _ h => h.1⟩

/-- The pair of one machine under both byte orders, PUSH 10 at address 0. -/
theorem witness_ByteOrderIsUnobservableAtEvenAddresses :
    (at' 0 4 [(0, 0x01), (1, 0x0A)]).MirroredBy (little 0 4 [(0, 0x0A), (1, 0x01)]) ∧
    (at' 0 4 [(0, 0x01), (1, 0x0A)]).pcAddr % 2 = 0 ∧ (at' 0 4 [(0, 0x01), (1, 0x0A)]).spAddr % 2 = 0 ∧
    (∀ i, (at' 0 4 [(0, 0x01), (1, 0x0A)]).Fetches i → ¬ i.CallsHandler (at' 0 4 [(0, 0x01), (1, 0x0A)])) ∧
    ∃ u, step (at' 0 4 [(0, 0x01), (1, 0x0A)]) = .next u := by
  have hf : (at' 0 4 [(0, 0x01), (1, 0x0A)]).Fetches (.push 10) := fetches_of (by decide) (by decide)
  refine ⟨⟨rfl, rfl, ?_, rfl, rfl, rfl, rfl⟩, by decide, by decide, ?_, ?_⟩
  · intro a
    match a with
    | 0 => rfl
    | 1 => rfl
    | n + 2 =>
      have h : 2 ≤ pairAddr (n + 2) := by unfold pairAddr; split <;> omega
      rw [show (at' 0 4 [(0, 0x01), (1, 0x0A)]).mem = [(0, 0x01), (1, 0x0A)] from rfl,
        show (little 0 4 [(0, 0x0A), (1, 0x01)]).mem = [(0, 0x0A), (1, 0x01)] from rfl]
      simp only [Memory.read]
      rw [if_neg (by omega), if_neg (by omega), if_neg (by omega), if_neg (by omega)]
  · intro i h
    rw [fetched_eq h hf]
    exact no_call (by intro id h; cases h)
  · rw [step_fetches hf]
    rcases push_finish_cases (zext16 10) (advance (at' 0 4 [(0, 0x01), (1, 0x0A)])) with ⟨-, h⟩ | ⟨-, h⟩ <;>
      exact ⟨_, h⟩
/-- PUSHREG PC with SP = PC: PC and SP are read, neither is the destination. -/
theorem witness_StraightLineStackStaysBehindPc_reads :
    (at' 0x40 0x40 [(0x40, 0x03), (0x41, 0x05)]).spAddr ≤ (at' 0x40 0x40 [(0x40, 0x03), (0x41, 0x05)]).pcAddr ∧
    (at' 0x40 0x40 [(0x40, 0x03), (0x41, 0x05)]).pcAddr + 2 < 65536 ∧
    (at' 0x40 0x40 [(0x40, 0x03), (0x41, 0x05)]).Fetches (.pushReg .pc) ∧
    (Instr.pushReg .pc).dest ≠ some .pc ∧ (Instr.pushReg .pc).dest ≠ some .sp ∧
    ¬ (Instr.pushReg .pc).CallsHandler (at' 0x40 0x40 [(0x40, 0x03), (0x41, 0x05)]) ∧
    ∃ t, step (at' 0x40 0x40 [(0x40, 0x03), (0x41, 0x05)]) = .next t := by
  have hf : (at' 0x40 0x40 [(0x40, 0x03), (0x41, 0x05)]).Fetches (.pushReg .pc) := fetches_of (by decide) (by decide)
  refine ⟨by decide, by decide, hf, by decide, by decide, no_call (by intro id h; cases h), ?_⟩
  rw [step_fetches hf]
  exact ⟨_, rfl⟩
theorem witness_ErrorLeavesStateOfFailingPlace_fetch :
    ∃ t, step (at' 0x2000 0 []) = .next t ∧ t.result = .err (.outOfBoundsAccess 0x2000) :=
  ⟨_, step_fetch_out (by decide), rfl⟩
/-- ADDSTACK with SP = 3: the second pop fails. -/
theorem witness_ErrorLeavesStateOfFailingPlace_pop :
    ∃ t, step (at' 0x50 3 [(0x50, 0x04)]) = .next t ∧ t.result = .err .stackUnderflow := by
  rw [step_fetches (fetches_of (i := .addStack) (by decide) (by decide))]
  rcases execAddStack_cases (advance (at' 0x50 3 [(0x50, 0x04)])) with ⟨h, -⟩ | ⟨-, h, -⟩ | ⟨-, -, -, h⟩ | ⟨h, -⟩
  · exact absurd h (by decide)
  · exact absurd h (by decide)
  · exact ⟨_, h, rfl⟩
  · exact absurd h (by decide)
theorem witness_ErrorKindsHaveTheirCauses_bounds :
    ∃ t, step (at' 0x1FFF 0 []) = .next t ∧ t.result = .err (.outOfBoundsAccess 0x1FFF) :=
  ⟨_, step_fetch_out (by decide), rfl⟩
theorem witness_ErrorKindsHaveTheirCauses_opcode :
    ∃ t, step (at' 0x20 6 [(0x20, 0xF0)]) = .next t ∧ t.result = .err (.invalidOpcode 0xF000) :=
  ⟨_, step_invalid (by decide) (not_ok_of (by decide)), rfl⟩
theorem witness_ErrorKindsHaveTheirCauses_underflow :
    ∃ t, step (at' 0x30 1 [(0x30, 0x02)]) = .next t ∧ t.result = .err .stackUnderflow := by
  rw [step_fetches (fetches_of (i := .popReg .a) (by decide) (by decide))]
  rcases execPopReg_cases .a (advance (at' 0x30 1 [(0x30, 0x02)])) with ⟨-, h⟩ | ⟨h, -⟩ | ⟨h, -⟩
  · exact ⟨_, h, rfl⟩
  · exact absurd h (by decide)
  · exact absurd h (by decide)
theorem witness_ErrorKindsHaveTheirCauses_signal :
    ∃ t, step (signalling 4 (.free 0)) = .next t ∧ t.result = .err (.unknownSignal 4) := by
  rw [step_fetches (fetches_of (i := .signal 4) (by decide) (by decide))]
  exact ⟨_, rfl, rfl⟩
theorem witness_PushStoresZeroExtendedImmediate :
    (at' 0 0x1FFE []).spAddr + 1 < (at' 0 0x1FFE []).capacity ∧
    ¬ (at' 0 0x1FFF []).spAddr + 1 < (at' 0 0x1FFF []).capacity := by decide
theorem witness_PushRegStoresRegister :
    (full 0 0xFFFE []).spAddr + 1 < (full 0 0xFFFE []).capacity ∧
    ¬ (full 0 0xFFFF []).spAddr + 1 < (full 0 0xFFFF []).capacity := by decide
theorem witness_PopRegLoadsRegister :
    2 ≤ (at' 0 0x2000 []).spAddr ∧ (at' 0 0x2000 []).spAddr - 1 < (at' 0 0x2000 []).capacity ∧
    2 ≤ (at' 0 2 []).spAddr ∧ (at' 0 2 []).spAddr - 1 < (at' 0 2 []).capacity := by decide
theorem witness_PopRegErrorsLeaveRegisterUnwritten :
    (at' 0 1 []).spAddr < 2 ∧ 2 ≤ (at' 0 0x2001 []).spAddr ∧
    (at' 0 0x2001 []).capacity ≤ (at' 0 0x2001 []).spAddr - 1 := by decide
theorem witness_AddStackReplacesTwoWordsBySum :
    4 ≤ (at' 0 4 []).spAddr ∧ (at' 0 4 []).spAddr - 1 < (at' 0 4 []).capacity ∧
    4 ≤ (at' 0 0x2000 []).spAddr ∧ (at' 0 0x2000 []).spAddr - 1 < (at' 0 0x2000 []).capacity := by decide
theorem witness_AddStackErrorsInOrder :
    (at' 0 1 []).spAddr < 2 ∧
    (2 ≤ (at' 0 0x2001 []).spAddr ∧ (at' 0 0x2001 []).capacity ≤ (at' 0 0x2001 []).spAddr - 1) ∧
    (2 ≤ (at' 0 2 []).spAddr ∧ (at' 0 3 []).spAddr < 4 ∧ (at' 0 3 []).spAddr - 1 < (at' 0 3 []).capacity) := by decide
theorem witness_SignalWithoutHandlerIsUnknownSignal :
    Registry.lookup (signalling 4 (.free 0)).sig 4 = none ∧
    ∃ t, step (signalling 4 (.free 0)) = .next t ∧ t.result = .err (.unknownSignal 4) :=
  ⟨by decide, witness_ErrorKindsHaveTheirCauses_signal⟩
theorem witness_SignalRunsScriptedHandler :
    Registry.lookup (signalling 3 (.scripted [.setHalted true])).sig 3 = some (.scripted [.setHalted true]) := by decide
theorem witness_SignalRunsFreeHandler : Registry.lookup (signalling 3 (.free 7)).sig 3 = some (.free 7) := by decide
theorem witness_SignalStopsExactlyOnBreachingHandler :
    Registry.lookup (signalling 3 (.breaching .reentersStep)).sig 3 = some (.breaching .reentersStep) ∧
    Registry.lookup (signalling 3 (.breaching .neverReturns)).sig 3 = some (.breaching .neverReturns) ∧
    Registry.lookup (signalling 3 (.breaching .registersHandler)).sig 3 = some (.breaching .registersHandler) := by
  decide
theorem witness_StepAlwaysAnswersUnlessHandlerBreachesDuty :
    ∀ id b, (signalling 3 (.free 0)).Fetches (.signal id) →
      Registry.lookup (signalling 3 (.free 0)).sig id ≠ some (.breaching b) := by
  intro id b h
  cases fetched_eq h (fetches_of (i := .signal 3) (by decide) (by decide))
  simp [signalling, Registry.lookup]
theorem witness_HandlerActionsUseTheMachinesInterfaces :
    State.reset.capacity ≤ 8192 ∧ State.reset.capacity ≤ 8191 + 1 ∧ 8191 < State.reset.capacity ∧
    8190 + 1 < State.reset.capacity ∧ (at' 0 0x1FFE []).spAddr + 1 < (at' 0 0x1FFE []).capacity ∧
    (at' 0 0x1FFF []).capacity ≤ (at' 0 0x1FFF []).spAddr + 1 ∧
    (2 ≤ (at' 0 0x2000 []).spAddr ∧ (at' 0 0x2000 []).spAddr - 1 < (at' 0 0x2000 []).capacity) ∧
    (2 ≤ (at' 0 0x2001 []).spAddr ∧ (at' 0 0x2001 []).capacity ≤ (at' 0 0x2001 []).spAddr - 1) ∧
    (at' 0 1 []).spAddr < 2 := by decide
theorem witness_PushThenPopRestores :
    push 0xBEEF (full 0 0xFFFC []) =
      .ok () (((full 0 0xFFFC []).storeWord 0xFFFC 0xBEEF).setReg .sp 0xFFFE) ∧
    (full 0 0xFFFC []).spAddr + 2 < 65536 := by decide
theorem witness_PushAtTopOfFullMemoryThenPopUnderflows :
    (full 0 0xFFFE []).cfg.memKib.val = 64 ∧ (full 0 0xFFFE []).getReg .sp = 0xFFFE#16 := by decide
theorem witness_AddRegPcIsRelativeJump :
    (at' 0x0A 0 [(0x0A, 0x05), (0x0B, 0x51)]).Fetches (.addReg .pc .b) ∧
    (at' 0x0A 0 [(0x0A, 0x05), (0x0B, 0x55)]).Fetches (.addReg .pc .pc) :=
  ⟨fetches_of (by decide) (by decide), fetches_of (by decide) (by decide)⟩
theorem witness_PushPcCapturesFollowingAddress :
    (at' 0x40 0x100 [(0x40, 0x03), (0x41, 0x05)]).Fetches (.pushReg .pc) ∧
    (at' 0x40 0x100 [(0x40, 0x03), (0x41, 0x05)]).spAddr + 1 <
      (at' 0x40 0x100 [(0x40, 0x03), (0x41, 0x05)]).capacity :=
  ⟨fetches_of (by decide) (by decide), by decide⟩
theorem witness_PopPcJumpsToPoppedWord_ok :
    (at' 0x30 6 [(0x30, 0x02), (0x31, 0x05)]).Fetches (.popReg .pc) ∧
    2 ≤ (at' 0x30 6 [(0x30, 0x02), (0x31, 0x05)]).spAddr ∧
    (at' 0x30 6 [(0x30, 0x02), (0x31, 0x05)]).spAddr - 1 < (at' 0x30 6 [(0x30, 0x02), (0x31, 0x05)]).capacity :=
  ⟨fetches_of (by decide) (by decide), by decide⟩
theorem witness_PopPcJumpsToPoppedWord_failing :
    (at' 0x30 1 [(0x30, 0x02), (0x31, 0x05)]).Fetches (.popReg .pc) ∧
    (at' 0x30 1 [(0x30, 0x02), (0x31, 0x05)]).spAddr < 2 ∧
    (at' 0x30 0x2001 [(0x30, 0x02), (0x31, 0x05)]).Fetches (.popReg .pc) ∧
    (at' 0x30 0x2001 [(0x30, 0x02), (0x31, 0x05)]).capacity ≤
      (at' 0x30 0x2001 [(0x30, 0x02), (0x31, 0x05)]).spAddr - 1 :=
  ⟨fetches_of (by decide) (by decide), by decide, fetches_of (by decide) (by decide), by decide⟩
theorem witness_JumpOutOfMemoryFailsAtNextFetch :
    (at' 4 0x1FFF [(4, 0x07), (5, 0x04)]).Fetches (.jmp .sp) ∧
    (at' 4 0x1FFF [(4, 0x07), (5, 0x04)]).capacity ≤
      addressOf ((advance (at' 4 0x1FFF [(4, 0x07), (5, 0x04)])).getReg .sp) + 1 :=
  ⟨fetches_of (by decide) (by decide), by decide⟩
theorem witness_DriverStopsAtErrorOrHalt_error :
    ∃ t, step (at' 0x2000 0 []) = .next t ∧ t.result ≠ .notStepped ∧ t.result = .err (.outOfBoundsAccess 0x2000) :=
  ⟨_, step_fetch_out (by decide), by simp, rfl⟩
theorem witness_DriverStopsAtErrorOrHalt_halt :
    ∃ t, step (signalling 3 (.scripted [.setHalted true])) = .next t ∧ t.result ≠ .notStepped ∧ t.result = .ok ∧
      t.halted = true := by
  rw [step_fetches (fetches_of (i := .signal 3) (by decide) (by decide))]
  exact ⟨_, rfl, by decide, rfl, rfl⟩
theorem witness_DriverStopsAtErrorOrHalt_on :
    ∃ t, step (at' 4 0 []) = .next t ∧ t.result ≠ .notStepped ∧ t.result = .ok ∧ t.halted = false := by
  rw [step_fetches (fetches_of (i := .nop) (by decide) (by decide))]
  exact ⟨_, rfl, by decide, rfl, rfl⟩
theorem witness_DriverVerdictIsFinal : ∀ t, driverRun 1 (at' 0x2000 0 []) ≠ .running t := by
  intro t
  rw [driverRun, step_fetch_out (by decide)]
  simp [driverTest]
theorem witness_PlacedWordRunsNext :
    decodeTableWord 16 0x010A = some (.push 10) ∧ (at' 0x1FFE 0 []).inBounds16 (at' 0x1FFE 0 []).pcAddr := by decide

end Sys2Proof.Tests
end

section
/-! PROOFS. The invariant under the host's requests (R9, R44): one lemma per update of the state, one per action, one per
request. -/

namespace Sys2Proof.Machine

/-! ## The invariant under the updates of a state -/

/-- The invariant constrains no register (R44, assumption log 23). -/
theorem State.Inv.setReg {s : State} (h : s.Inv) (r : Reg) (v : Word) : (s.setReg r v).Inv := h

/-- The invariant does not constrain `halted`. -/
theorem State.Inv.setHalted {s : State} (h : s.Inv) (b : Bool) : (s.setHalted b).Inv := h

theorem State.Inv.setMem_write {s : State} (h : s.Inv) {a : Nat} (b : Byte) (ha : a < s.capacity) :
    (s.setMem (Memory.write s.mem a b)).Inv := by
  obtain ⟨hwf, hin, hsig, henc⟩ := h
  exact ⟨Memory.write_wf hwf a b, Memory.write_within hin ha b, hsig, henc⟩

/-- An unchecked word store whose two bytes lie inside the memory is two byte writes inside it (R57). -/
theorem State.Inv.storeWord {s : State} (h : s.Inv) {a : Nat} (v : Word) (ha : a + 1 < s.capacity) :
    (s.storeWord a v).Inv :=
  (h.setMem_write (firstByte s.cfg.byteOrder v) (Nat.lt_of_succ_lt ha)).setMem_write
    (secondByte s.cfg.byteOrder v) ha

/-- A registration changes the registry alone, and keeps it canonical (R37). -/
theorem State.Inv.register {s : State} (h : s.Inv) (id : Byte) (f : Handler) :
    State.Inv { s with sig := Registry.register s.sig id f } := by
  obtain ⟨hwf, hin, hsig, henc⟩ := h
  exact ⟨hwf, hin, Registry.register_wf hsig id f, henc⟩

/-! ## The invariant under the checked operations, done or failed -/

theorem memWrite_inv {s : State} (h : s.Inv) (a : Nat) (b : Byte) : (memWrite a b s).state.Inv := by
  rcases Nat.lt_or_ge a s.capacity with ha | ha
  · rw [memWrite_in b ha]
    exact h.setMem_write b ha
  · rw [memWrite_out b ha]
    exact h

theorem memWrite16_inv {s : State} (h : s.Inv) (a : Nat) (v : Word) : (memWrite16 a v s).state.Inv := by
  rcases Nat.lt_or_ge (a + 1) s.capacity with ha | ha
  · rw [memWrite16_in v ha]
    exact h.storeWord v ha
  · rw [memWrite16_out v ha]
    exact h

theorem push_inv {s : State} (h : s.Inv) (v : Word) : (push v s).state.Inv := by
  rcases push_cases v s with ⟨ha, hp⟩ | ⟨-, hp⟩ <;> rw [hp]
  · exact (h.storeWord v ha).setReg .sp _
  · exact h

theorem pop_inv {s : State} (h : s.Inv) : (pop s).state.Inv := by
  rcases pop_cases s with ⟨-, hp⟩ | ⟨-, -, hp⟩ | ⟨-, -, hp⟩ <;> rw [hp]
  · exact h
  · exact h.setReg .sp _
  · exact h.setReg .sp _

/-- The host's pop drops the popped word and leaves the state `Pop` left. -/
theorem hostAct_pop_state (s : State) : (hostAct .pop s).state = (pop s).state := by
  rw [hostAct]
  cases pop s <;> rfl

/-- Every action of the host or of a handler keeps the invariant, done or failed (R143). -/
theorem hostAct_inv (a : HostAction) {s : State} (h : s.Inv) : (hostAct a s).state.Inv := by
  cases a with
  | setReg r v => exact h.setReg r v
  | write addr b => exact memWrite_inv h addr b
  | write16 addr v => exact memWrite16_inv h addr v
  | setHalted b => exact h.setHalted b
  | push v => exact push_inv h v
  | pop => exact hostAct_pop_state s ▸ pop_inv h

/-- Settles O23, by cases on the request: an action keeps the invariant by `hostAct_inv`, a registration by the registry's
law. -/
theorem hostRequestsKeepInvariant : Obligations.HostRequestsKeepInvariant := by
  unfold Obligations.HostRequestsKeepInvariant
  intro q s h
  cases q with
  | act a => exact hostAct_inv a h
  | register id f => exact h.register id f

end Sys2Proof.Machine
end

section
/-! PROOFS. The state (10_state.md): what its containers hold after an update, what a step can do to a state (said once),
and the parts of a state that a step neither reads nor changes. -/

namespace Sys2Proof.Machine

/-! ## The register file, the memory and the registry as maps -/

theorem Memory.mem_of_read_ne_fill {m : Memory} {a : Nat} (h : Memory.read m a ≠ Memory.fill) :
    (a, Memory.read m a) ∈ m := by
  induction m with
  | nil => exact absurd rfl h
  | cons d m ih =>
    by_cases hd : d.1 = a
    · subst hd
      simp [Memory.read]
    · simp only [Memory.read, hd, if_false] at h ⊢
      exact List.mem_cons_of_mem d (ih h)

theorem Memory.read_of_mem {m : Memory} (hm : m.Pairwise fun c d => c.1 < d.1) {a : Nat} {b : Byte}
    (h : (a, b) ∈ m) : Memory.read m a = b := by
  induction m with
  | nil => cases h
  | cons d m ih =>
    obtain ⟨hd, hm⟩ := List.pairwise_cons.1 hm
    rcases List.mem_cons.1 h with rfl | h
    · simp [Memory.read]
    · simp only [Memory.read, if_neg (hd _ h).ne]
      exact ih hm h

/-- The entries of a canonical memory are its bytes that are not the fill, so they are determined by what it reads. -/
theorem Memory.mem_iff_read {m : Memory} (hm : Memory.wf m) {c : Host.Cell} :
    c ∈ m ↔ c.2 ≠ Memory.fill ∧ Memory.read m c.1 = c.2 := by
  constructor
  · exact fun h => ⟨hm.2 c h, Memory.read_of_mem hm.1 h⟩
  · rintro ⟨hne, hread⟩
    have hmem := Memory.mem_of_read_ne_fill (hread.symm ▸ hne)
    rwa [hread] at hmem

/-- The memory of an image reads as the image below the capacity (R43). -/
theorem Memory.read_ofImage {n a : Nat} (image : Nat → Byte) (ha : a < n) :
    Memory.read (Memory.ofImage n image) a = image a := by
  by_cases hf : image a = Memory.fill
  · rw [hf]
    refine Memory.read_of_not_listed fun c hc hca => ?_
    obtain ⟨a', -, hc'⟩ := List.mem_filterMap.1 hc
    by_cases ha' : image a' = Memory.fill
    · simp [ha'] at hc'
    · simp only [ha', if_false, Option.some.injEq] at hc'
      subst hc' hca
      exact ha' hf
  · refine Memory.read_of_mem (Memory.ofImage_wf n image).1 (List.mem_filterMap.2 ⟨a, List.mem_range.2 ha, ?_⟩)
    rw [if_neg hf]

/-- The image that is the fill everywhere needs no entry. -/
theorem Memory.ofImage_fill (n : Nat) : Memory.ofImage n (fun _ => Memory.fill) = [] :=
  List.filterMap_eq_nil_iff.2 fun _ _ => if_pos rfl

theorem Registry.lookup_insert {g : Registry} {id : Byte} (hid : ∀ e ∈ g, e.1 ≠ id) (id' : Byte) (h : Handler) :
    Registry.lookup (Registry.insert id h g) id' = if id' = id then some h else Registry.lookup g id' := by
  induction g with
  | nil => simp [Registry.insert, Registry.lookup, eq_comm]
  | cons e g ih =>
    have ih := ih fun f hf => hid f (List.mem_cons_of_mem e hf)
    have he : e.1 ≠ id := hid e List.mem_cons_self
    by_cases hlt : id.toNat < e.1.toNat
    · simp [Registry.insert, hlt, Registry.lookup, eq_comm]
    · simp only [Registry.insert, hlt, if_false, Registry.lookup, ih]
      by_cases heq : e.1 = id'
      · rw [if_pos heq, if_neg (heq ▸ he), if_pos heq]
      · rw [if_neg heq, if_neg heq]

theorem Registry.lookup_filter_of_ne (g : Registry) {id id' : Byte} (hne : id' ≠ id) :
    Registry.lookup (g.filter fun e => e.1 != id) id' = Registry.lookup g id' := by
  induction g with
  | nil => rfl
  | cons e g ih =>
    by_cases he : e.1 = id
    · simp [he, Registry.lookup, ih, hne.symm]
    · simp [he, Registry.lookup, ih]

/-- Settles O17: a canonical memory is a sorted list whose entries are determined by what it reads. -/
theorem canonicalMemoriesWithEqualBytesAreEqual : Obligations.CanonicalMemoriesWithEqualBytesAreEqual := by
  unfold Obligations.CanonicalMemoriesWithEqualBytesAreEqual
  intro m n hm hn hread
  have hirrefl : Std.Irrefl fun c d : Host.Cell => c.1 < d.1 := ⟨fun c => Nat.lt_irrefl c.1⟩
  have hasymm : Std.Antisymm fun c d : Host.Cell => c.1 < d.1 := ⟨fun c d h h' => absurd h (Nat.lt_asymm h')⟩
  refine List.Pairwise.eq_of_mem_iff hm.1 hn.1 fun c => ?_
  rw [Memory.mem_iff_read hm, Memory.mem_iff_read hn, hread]

/-- Settles O18: the old entry of the id is filtered out, then the new one is put in its place. -/
theorem registryLookupAfterRegistration : Obligations.RegistryLookupAfterRegistration := by
  unfold Obligations.RegistryLookupAfterRegistration
  intro g id id' h
  rw [Registry.register, Registry.lookup_insert fun e he => by simpa using (List.mem_filter.1 he).2]
  by_cases hne : id' = id
  · rw [if_pos hne, if_pos hne]
  · rw [if_neg hne, if_neg hne, Registry.lookup_filter_of_ne g hne]

/-- Settles O12, by the two laws of `RegFile.set`. -/
theorem registerSetChangesOneSlot : Obligations.RegisterSetChangesOneSlot := by
  unfold Obligations.RegisterSetChangesOneSlot
  intro x r r' v
  by_cases h : r' = r
  · rw [if_pos h, h, RegFile.get_set_self]
  · rw [if_neg h, RegFile.get_set_of_ne x v h]

/-! ## Reset -/

/-- After reset every register but PC is 0 (R43). -/
theorem RegFile.atReset_get_of_ne (pc : Word) {r : Reg} (h : r ≠ .pc) : (RegFile.atReset pc).get r = 0#16 := by
  cases r with
  | pc => exact absurd rfl h
  | a | b | c | m | sp | bp | fl => rfl

/-- A constructed machine with a legal registry and numbering meets the invariant (R44). -/
theorem State.construct_inv {c : Config} (pc : Word) (image : Nat → Byte) {g : Registry} (hg : Registry.wf g)
    (hc : c.encoding.wf) : (State.construct c pc image g).Inv :=
  ⟨Memory.ofImage_wf _ image, Memory.ofImage_within _ image, hg, hc⟩

/-- Reset is the construction from the reference values (R43, R190). -/
theorem State.construct_reference :
    State.construct Config.reference Config.resetPc (fun _ => Memory.fill) [] = State.reset := by
  rw [State.construct, Memory.ofImage_fill]
  rfl

/-- Settles O20, each part by the law of the field it speaks of. -/
theorem constructedMachineHoldsItsParameters : Obligations.ConstructedMachineHoldsItsParameters := by
  unfold Obligations.ConstructedMachineHoldsItsParameters
  refine ⟨fun c pc image g => ?_, State.construct_reference⟩
  exact ⟨fun _ ha => Memory.read_ofImage image ha, rfl, fun _ hr => RegFile.atReset_get_of_ne pc hr, rfl, rfl, rfl,
    State.construct_inv pc image⟩

/-- Settles O19: PC holds `RESET_PC`, which is 0, and every other register is 0 as in any constructed machine. -/
theorem resetValues : Obligations.ResetValues := by
  unfold Obligations.ResetValues
  refine ⟨fun r => ?_, rfl, rfl, rfl, rfl, rfl, fun _ => rfl⟩
  by_cases hr : r = .pc
  · rw [hr]
    rfl
  · exact RegFile.atReset_get_of_ne _ hr

/-- Settles O21: reset is a constructed machine with an empty registry and the reference numbering. -/
theorem resetMeetsInvariant : Obligations.ResetMeetsInvariant := by
  unfold Obligations.ResetMeetsInvariant
  rw [← State.construct_reference]
  exact State.construct_inv _ _ List.Pairwise.nil (by decide)

/-- Settles O11: a sum that wraps is at least 2^16, and an in-bounds address is below a capacity of at most 64 KiB. -/
theorem pcAndSpWrapOnlyAtTopOfFullMemory : Obligations.PcAndSpWrapOnlyAtTopOfFullMemory := by
  unfold Obligations.PcAndSpWrapOnlyAtTopOfFullMemory
  intro s r _ hin hwrap
  have hcap : s.capacity = 1024 * s.cfg.memKib.val := rfl
  have hkib := s.cfg.memKib.isLt
  simp only [addressOf, addWrap_toNat, BitVec.toNat_ofNat] at hin hwrap
  have htop : s.getReg r = 0xFFFE#16 := BitVec.eq_of_toNat_eq (by rw [BitVec.toNat_ofNat]; omega)
  rw [htop] at hin ⊢
  rw [BitVec.toNat_ofNat] at hin
  exact ⟨by omega, rfl, rfl⟩

/-! ## What a step can do, said once -/

/-- `t` is `s` with other values in the registers `rs` and another recorded answer, and the same in everything else. -/
def State.DiffersInRegs (rs : List Reg) (s t : State) : Prop :=
  s.KeepsRegsBut rs t ∧ t.mem = s.mem ∧ s.KeepsControl t

theorem State.DiffersInRegs.refl (rs : List Reg) (s : State) : s.DiffersInRegs rs s :=
  ⟨fun _ _ => rfl, rfl, rfl, rfl, rfl, rfl⟩

theorem State.DiffersInRegs.setReg {rs : List Reg} {s t : State} (h : s.DiffersInRegs rs t) {r : Reg} (hr : r ∈ rs)
    (v : Word) : s.DiffersInRegs rs (t.setReg r v) := by
  obtain ⟨hregs, hmem, hcontrol⟩ := h
  refine ⟨fun r' hr' => ?_, hmem, hcontrol⟩
  have hne : r' ≠ r := fun heq => hr' (heq ▸ hr)
  rw [State.getReg_setReg_of_ne t v hne, hregs r' hr']

theorem State.DiffersInRegs.answer {rs : List Reg} {s t : State} (h : s.DiffersInRegs rs t) (q : StepResult) :
    s.DiffersInRegs rs (t.answer q) := h

/-- `t` is `s` after an instruction's store: a word at the address of `Instr.storesAt`, in bounds, a new SP,
and `Ok`. -/
def State.StoredBy (i : Instr) (s t : State) : Prop :=
  ∃ a v w, i.storesAt s = some a ∧ a + 1 < s.capacity ∧ .sp ∈ i.written ∧
    t = ((s.storeWord a v).setReg .sp w).answer .ok

theorem push_finish_next {i : Instr} {v : Word} {s t : State} (ha : i.storesAt s = some s.spAddr)
    (hsp : .sp ∈ i.written) (ht : (push v s).finish = .next t) :
    s.StoredBy i t ∨ s.DiffersInRegs i.written t := by
  rcases push_finish_cases v s with ⟨hin, hp⟩ | ⟨-, hp⟩ <;> rw [hp, Host.Outcome.next.injEq] at ht <;> subst ht
  · exact .inl ⟨_, _, _, ha, hin, hsp, rfl⟩
  · exact .inr ((State.DiffersInRegs.refl _ s).answer _)

/-- The address ADDSTACK's `Push` stores at once both pops have passed (R130). -/
theorem State.addressOf_sp_sub_four {s : State} (h : 4 ≤ s.spAddr) :
    addressOf (s.getReg .sp - 4#16) = s.spAddr - 4 := by
  have hle : 4#16 ≤ s.getReg .sp := BitVec.le_def.2 h
  rw [addressOf, BitVec.toNat_sub_of_le hle]
  rfl

/-- Everything an instruction that calls no handler can answer: its store was made, or only registers it writes and the
answer differ (R23, R61, R165). -/
theorem exec_next_cases {i : Instr} {s t : State} (hc : ¬ i.CallsHandler s) (ht : exec i s = .next t) :
    s.StoredBy i t ∨ s.DiffersInRegs i.written t := by
  have hrefl := State.DiffersInRegs.refl i.written s
  cases i with
  | nop =>
    cases ht
    exact .inr (hrefl.answer _)
  | push imm8 => exact push_finish_next rfl (by simp [Instr.written]) ht
  | pushReg r => exact push_finish_next rfl (by simp [Instr.written]) ht
  | popReg r =>
    have hlow := hrefl.setReg (r := .sp) (by simp [Instr.written]) (s.getReg .sp - 2#16)
    rcases execPopReg_cases r s with ⟨-, hp⟩ | ⟨-, -, hp⟩ | ⟨-, -, hp⟩ <;> cases hp.symm.trans ht
    · exact .inr (hrefl.answer _)
    · exact .inr (hlow.answer _)
    · exact .inr ((hlow.setReg (by simp [Instr.written]) _).answer _)
  | addStack =>
    have hlow := hrefl.setReg (r := .sp) (by simp [Instr.written]) (s.getReg .sp - 2#16)
    rcases execAddStack_cases s with ⟨-, hp⟩ | ⟨-, -, hp⟩ | ⟨-, -, -, hp⟩ | ⟨hfour, hin, hp⟩ <;>
      cases hp.symm.trans ht
    · exact .inr (hrefl.answer _)
    · exact .inr (hlow.answer _)
    · exact .inr (hlow.answer _)
    · have ha : Instr.addStack.storesAt s = some (s.spAddr - 4) := congrArg some (State.addressOf_sp_sub_four hfour)
      exact .inl ⟨_, _, _, ha, by omega, by simp [Instr.written], rfl⟩
  | addReg r1 r2 =>
    cases ht
    exact .inr ((hrefl.setReg (by simp [Instr.written]) _).answer _)
  | signal id =>
    rcases execSignal_next ht with ⟨-, rfl⟩ | ⟨h, hl, -⟩
    · exact .inr (hrefl.answer _)
    · exact absurd ⟨id, h, rfl, hl⟩ hc
  | jmp r =>
    cases ht
    exact .inr ((hrefl.setReg (by simp [Instr.written]) _).answer _)

/-- A handler's call that ends has run a script and answers `Ok` (R140, R142). -/
theorem exec_next_of_callsHandler {i : Instr} {s t : State} (hc : i.CallsHandler s) (ht : exec i s = .next t) :
    ∃ script n, t = (runScript script (s.setDraws n)).answer .ok := by
  obtain ⟨id, h, rfl, hl⟩ := hc
  rcases execSignal_next ht with ⟨hn, -⟩ | ⟨h', -, hcall⟩
  · rw [hl] at hn
    cases hn
  · obtain ⟨script, n, ht, -⟩ := callHandler_next hcall
    exact ⟨script, n, ht⟩

/-- Every next state of a step: the error of a failed fetch or decode, or an instruction's on the advanced state
(R100). -/
theorem step_next_cases {s t : State} (ht : step s = .next t) :
    (∃ e, t = s.answer (.err e)) ∨ (∃ e, t = (advance s).answer (.err e)) ∨
    ∃ i, s.Fetches i ∧ exec i (advance s) = .next t := by
  rcases step_cases s with ⟨-, hs⟩ | ⟨-, -, hs⟩ | ⟨i, hi, hs⟩ <;> rw [hs] at ht
  · cases ht
    exact .inl ⟨_, rfl⟩
  · cases ht
    exact .inr (.inl ⟨_, rfl⟩)
  · exact .inr (.inr ⟨i, hi, ht⟩)

/-! ## Frames -/

theorem State.StoredBy.keepsControl {i : Instr} {s t : State} (h : s.StoredBy i t) : s.KeepsControl t := by
  obtain ⟨a, v, w, -, -, -, rfl⟩ := h
  exact ⟨rfl, rfl, rfl, rfl⟩

theorem State.StoredBy.keepsRegsBut {i : Instr} {s t : State} (h : s.StoredBy i t) : s.KeepsRegsBut i.written t := by
  obtain ⟨a, v, w, -, -, hsp, rfl⟩ := h
  exact fun r hr => State.getReg_setReg_of_ne (s.storeWord a v) w fun heq => hr (heq ▸ hsp)

theorem exec_keepsControl {i : Instr} {s t : State} (hc : ¬ i.CallsHandler s) (ht : exec i s = .next t) :
    s.KeepsControl t := by
  rcases exec_next_cases hc ht with hst | ⟨-, -, hcontrol⟩
  · exact hst.keepsControl
  · exact hcontrol

/-- Settles O28, by the two things an instruction without a handler can do. -/
theorem instructionsWriteOnlyTheirRegisters : Obligations.InstructionsWriteOnlyTheirRegisters := by
  unfold Obligations.InstructionsWriteOnlyTheirRegisters
  intro i s t hc ht
  refine ⟨?_, exec_keepsControl hc ht⟩
  rcases exec_next_cases hc ht with hst | ⟨hregs, -, -⟩
  · exact hst.keepsRegsBut
  · exact hregs

/-- Settles O29: an instruction that stores answers `Ok` and stores one word; otherwise the memory is the same. -/
theorem memoryChangesOnlyWhereStored : Obligations.MemoryChangesOnlyWhereStored := by
  unfold Obligations.MemoryChangesOnlyWhereStored
  intro i s t hc ht
  rcases exec_next_cases hc ht with ⟨a, v, w, ha, -, -, rfl⟩ | ⟨-, hmem, -⟩
  · refine ⟨fun b hb => ?_, fun hnone => ?_, fun hres => absurd rfl hres⟩
    · cases ha.symm.trans hb
      exact State.keepsBytesBut_storeWord s a v
    · cases ha.symm.trans hnone
  · have hbytes : s.KeepsBytes t := fun a => by rw [hmem]
    exact ⟨fun _ _ a _ => hbytes a, fun _ => hbytes, fun _ => hmem⟩

/-- No instruction, with a handler's call or without, changes the parameters or the registry (R38, R143). -/
theorem exec_keeps_cfg_sig {i : Instr} {s t : State} (ht : exec i s = .next t) : t.cfg = s.cfg ∧ t.sig = s.sig := by
  by_cases hc : i.CallsHandler s
  · obtain ⟨script, n, rfl⟩ := exec_next_of_callsHandler hc ht
    obtain ⟨hcfg, hsig, -, -⟩ := runScript_keeps script (s.setDraws n)
    exact ⟨hcfg, hsig⟩
  · obtain ⟨hcfg, -, hsig, -⟩ := exec_keepsControl hc ht
    exact ⟨hcfg, hsig⟩

/-- Settles O24: the advance and the recorded answer are other fields, and no instruction changes these two. -/
theorem stepKeepsParametersAndRegistry : Obligations.StepKeepsParametersAndRegistry := by
  unfold Obligations.StepKeepsParametersAndRegistry
  intro s t ht
  rcases step_next_cases ht with ⟨e, rfl⟩ | ⟨e, rfl⟩ | ⟨i, -, hi⟩
  · exact ⟨rfl, rfl⟩
  · exact ⟨rfl, rfl⟩
  · exact exec_keeps_cfg_sig (s := advance s) hi

/-! ## The invariant under every step -/

theorem runScript_inv (script : List HostAction) {s : State} (h : s.Inv) : (runScript script s).Inv := by
  induction script generalizing s with
  | nil => exact h
  | cons a rest ih => exact ih (hostAct_inv a h)

theorem State.StoredBy.inv {i : Instr} {s t : State} (h : s.StoredBy i t) (hs : s.Inv) : t.Inv := by
  obtain ⟨a, v, w, -, hin, -, rfl⟩ := h
  exact (hs.storeWord v hin).setReg .sp w

/-- The invariant speaks of the memory, the parameters and the registry alone (R44). -/
theorem State.DiffersInRegs.inv {rs : List Reg} {s t : State} (h : s.DiffersInRegs rs t) (hs : s.Inv) : t.Inv := by
  obtain ⟨-, hmem, hcfg, -, hsig, -⟩ := h
  unfold State.Inv State.capacity
  rw [hmem, hcfg, hsig]
  exact hs

theorem exec_inv {i : Instr} {s t : State} (hs : s.Inv) (ht : exec i s = .next t) : t.Inv := by
  by_cases hc : i.CallsHandler s
  · obtain ⟨script, n, rfl⟩ := exec_next_of_callsHandler hc ht
    exact runScript_inv script (s := s.setDraws n) hs
  · rcases exec_next_cases hc ht with hst | hregs
    · exact hst.inv hs
    · exact hregs.inv hs

/-- Settles O22: an instruction keeps the invariant by `exec_inv`, and neither an answer nor the advance of PC touches
it. -/
theorem stepKeepsInvariant : Obligations.StepKeepsInvariant := by
  unfold Obligations.StepKeepsInvariant
  intro s t hs ht
  have hadv : (advance s).Inv := hs.setReg .pc _
  rcases step_next_cases ht with ⟨e, rfl⟩ | ⟨e, rfl⟩ | ⟨i, -, hi⟩
  · exact hs
  · exact hadv
  · exact exec_inv hadv hi

/-! ## What is neither read nor written -/

/-- `f` updates a part of the state that statements using only the registers `rs` neither read nor write: it leaves what
they read, and it commutes with what they write. -/
structure Unobserved (rs : List Reg) (f : State → State) : Prop where
  cfg (s : State) : (f s).cfg = s.cfg
  mem (s : State) : (f s).mem = s.mem
  sig (s : State) : (f s).sig = s.sig
  getReg (s : State) {r : Reg} : r ∈ rs → (f s).getReg r = s.getReg r
  setReg (s : State) {r : Reg} (v : Word) : r ∈ rs → (f s).setReg r v = f (s.setReg r v)
  setMem (s : State) (m : Memory) : (f s).setMem m = f (s.setMem m)
  answer (s : State) (q : StepResult) : (f s).answer q = f (s.answer q)

theorem unobserved_setHalted (rs : List Reg) (b : Bool) : Unobserved rs fun s => s.setHalted b where
  cfg _ := rfl
  mem _ := rfl
  sig _ := rfl
  getReg _ _ _ := rfl
  setReg _ _ _ _ := rfl
  setMem _ _ := rfl
  answer _ _ := rfl

theorem unobserved_setReg {rs : List Reg} {r : Reg} (hr : r ∉ rs) (v : Word) :
    Unobserved rs fun s => s.setReg r v where
  cfg _ := rfl
  mem _ := rfl
  sig _ := rfl
  getReg s _ h := State.getReg_setReg_of_ne s v fun heq => hr (heq ▸ h)
  setReg s _ w h := State.setReg_comm s v w fun heq => hr (heq ▸ h)
  setMem _ _ := rfl
  answer _ _ := rfl

/-- The same end of a sequence of statements, with its state updated by `f`. -/
def Ran.mapState {α : Type} (f : State → State) : Ran α → Ran α
  | .ok v s => .ok v (f s)
  | .raised e s => .raised e (f s)

theorem Ran.state_mapState {α : Type} (f : State → State) (p : Ran α) : (p.mapState f).state = f p.state := by
  cases p <;> rfl

theorem Ran.andThen_mapState {α β : Type} {f : State → State} {k : α → State → Ran β}
    (hk : ∀ v s, k v (f s) = (k v s).mapState f) (p : Ran α) :
    (p.mapState f).andThen k = (p.andThen k).mapState f := by
  cases p with
  | ok v s => exact hk v s
  | raised e s => rfl

section UnobservedOperations

variable {rs : List Reg} {f : State → State}

theorem Unobserved.capacity (hf : Unobserved rs f) (s : State) : (f s).capacity = s.capacity :=
  congrArg Config.capacity (hf.cfg s)

theorem Unobserved.memRead16_map (hf : Unobserved rs f) (a : Nat) (s : State) :
    memRead16 a (f s) = (memRead16 a s).mapState f := by
  simp only [memRead16, State.inBounds16, State.wordAt, hf.capacity, hf.cfg, hf.mem]
  split <;> rfl

theorem Unobserved.memWrite_map (hf : Unobserved rs f) (a : Nat) (b : Byte) (s : State) :
    memWrite a b (f s) = (memWrite a b s).mapState f := by
  simp only [memWrite, State.inBounds8, hf.capacity, hf.mem, hf.setMem]
  split <;> rfl

theorem Unobserved.memWrite16_map (hf : Unobserved rs f) (a : Nat) (v : Word) (s : State) :
    memWrite16 a v (f s) = (memWrite16 a v s).mapState f := by
  simp only [memWrite16, State.inBounds16, State.storeWord, hf.capacity, hf.cfg, hf.mem, hf.setMem]
  split <;> rfl

theorem Unobserved.push_map (hf : Unobserved rs f) (hsp : .sp ∈ rs) (v : Word) (s : State) :
    push v (f s) = (push v s).mapState f := by
  rw [push, State.spAddr, hf.getReg s hsp, hf.memWrite16_map, Ran.andThen_mapState]
  · rfl
  · intro _ t
    rw [hf.getReg t hsp, hf.setReg t _ hsp]
    rfl

theorem Unobserved.pop_map (hf : Unobserved rs f) (hsp : .sp ∈ rs) (s : State) : pop (f s) = (pop s).mapState f := by
  rw [pop, pop, hf.getReg s hsp, hf.setReg s _ hsp]
  split
  · rfl
  · simp only [State.spAddr, hf.getReg _ hsp, hf.memRead16_map]

end UnobservedOperations

/-- An instruction's own statements, with UnknownSignal for SIGNAL: what it does when it calls no handler. -/
def statementsOf : Instr → State → Ran Unit
  | .nop, s => .ok () s
  | .push imm8, s => push (zext16 imm8) s
  | .popReg r, s => (pop s).andThen fun v t => .ok () (t.setReg r v)
  | .pushReg r, s => push (s.getReg r) s
  | .addStack, s => (pop s).andThen fun a t => (pop t).andThen fun b u => push (addWrap b a) u
  | .addReg r1 r2, s => .ok () (s.setReg r1 (addWrap (s.getReg r1) (s.getReg r2)))
  | .signal id, s => .raised (.unknownSignal id) s
  | .jmp r, s => .ok () (s.setReg .pc (s.getReg r))

theorem exec_eq_finish_statementsOf {i : Instr} {s : State} (hc : ¬ i.CallsHandler s) :
    exec i s = (statementsOf i s).finish := by
  cases i with
  | nop | push | popReg | pushReg | addStack | addReg | jmp => rfl
  | signal id =>
    cases hl : Registry.lookup s.sig id with
    | none => simp only [exec, execSignal, hl, statementsOf, Ran.finish]
    | some h => exact absurd ⟨id, h, rfl, hl⟩ hc

theorem Unobserved.statementsOf_map {i : Instr} {f : State → State} (hf : Unobserved (.pc :: .sp :: i.named) f)
    (s : State) : statementsOf i (f s) = (statementsOf i s).mapState f := by
  have hsp : Reg.sp ∈ .pc :: .sp :: i.named := by simp
  have hnamed {r : Reg} (hr : r ∈ i.named) : r ∈ .pc :: .sp :: i.named := by simp [hr]
  cases i with
  | nop => rfl
  | push imm8 => exact hf.push_map hsp _ s
  | popReg r =>
    rw [statementsOf, hf.pop_map hsp, Ran.andThen_mapState]
    · rfl
    · intro v t
      rw [hf.setReg t v (hnamed (by simp [Instr.named]))]
      rfl
  | pushReg r =>
    rw [statementsOf, hf.getReg s (hnamed (by simp [Instr.named])), hf.push_map hsp]
    rfl
  | addStack =>
    rw [statementsOf, hf.pop_map hsp, Ran.andThen_mapState]
    · rfl
    · intro a t
      rw [hf.pop_map hsp, Ran.andThen_mapState fun b u => hf.push_map hsp _ u]
  | addReg r1 r2 =>
    have h1 : r1 ∈ .pc :: .sp :: (Instr.addReg r1 r2).named := hnamed (by simp [Instr.named])
    rw [statementsOf, hf.getReg s h1, hf.getReg s (hnamed (by simp [Instr.named])), hf.setReg s _ h1]
    rfl
  | signal id => rfl
  | jmp r =>
    rw [statementsOf, hf.getReg s (hnamed (by simp [Instr.named])), hf.setReg s _ (by simp)]
    rfl

/-- An instruction that calls no handler does the same with an unobserved part of the state updated. -/
theorem Unobserved.exec_next {i : Instr} {f : State → State} (hf : Unobserved (.pc :: .sp :: i.named) f) {s t : State}
    (hc : ¬ i.CallsHandler s) (ht : exec i s = .next t) : exec i (f s) = .next (f t) := by
  have hc' : ¬ i.CallsHandler (f s) := by rwa [Instr.CallsHandler, hf.sig]
  rw [exec_eq_finish_statementsOf hc] at ht
  rw [exec_eq_finish_statementsOf hc', hf.statementsOf_map]
  cases hp : statementsOf i s with
  | ok _ u | raised _ u =>
    cases hp ▸ ht
    exact congrArg Host.Outcome.next (hf.answer u _)

/-- Settles O27: a write of such a register is unobserved by the instruction. -/
theorem unnamedRegisterIsNeitherReadNorWritten : Obligations.UnnamedRegisterIsNeitherReadNorWritten := by
  unfold Obligations.UnnamedRegisterIsNeitherReadNorWritten
  intro i s t r v hpc hsp hnamed hc ht
  have hr : r ∉ .pc :: .sp :: i.named := by simp [hpc, hsp, hnamed]
  exact (unobserved_setReg hr v).exec_next hc ht

/-! ## `halted` -/

/-- An action on a state with another `halted` leaves the same state, but perhaps for `halted`. -/
theorem hostAct_setHalted (a : HostAction) (s : State) (b : Bool) :
    ∃ b', (hostAct a (s.setHalted b)).state = (hostAct a s).state.setHalted b' := by
  have hf := unobserved_setHalted [.sp] b
  have hsp : Reg.sp ∈ [Reg.sp] := List.mem_singleton_self _
  cases a with
  | setReg r v => exact ⟨b, rfl⟩
  | write addr c => exact ⟨b, (congrArg Ran.state (hf.memWrite_map addr c s)).trans (Ran.state_mapState _ _)⟩
  | write16 addr v => exact ⟨b, (congrArg Ran.state (hf.memWrite16_map addr v s)).trans (Ran.state_mapState _ _)⟩
  | setHalted h => exact ⟨h, rfl⟩
  | push v => exact ⟨b, (congrArg Ran.state (hf.push_map hsp v s)).trans (Ran.state_mapState _ _)⟩
  | pop =>
    refine ⟨b, ?_⟩
    rw [hostAct_pop_state, hostAct_pop_state, hf.pop_map hsp, Ran.state_mapState]

theorem runScript_setHalted (script : List HostAction) (s : State) (b : Bool) :
    ∃ b', runScript script (s.setHalted b) = (runScript script s).setHalted b' := by
  induction script generalizing s b with
  | nil => exact ⟨b, rfl⟩
  | cons a rest ih =>
    obtain ⟨b', ha⟩ := hostAct_setHalted a s b
    rw [runScript, ha]
    exact ih _ b'

/-- What a handler that the host has not left free does does not depend on `halted`. -/
theorem callHandler_setHalted {id : Byte} {h : Handler} {s t : State} (hfree : ∀ n, h ≠ .free n) (b : Bool)
    (ht : callHandler id h s = .next t) : ∃ b', callHandler id h (s.setHalted b) = .next (t.setHalted b') := by
  cases h with
  | scripted script =>
    cases ht
    obtain ⟨b', hs⟩ := runScript_setHalted script s b
    refine ⟨b', ?_⟩
    rw [callHandler, hs]
    rfl
  | free n => exact absurd rfl (hfree n)
  | breaching d => cases d <;> cases ht

theorem exec_setHalted {i : Instr} {s t : State} (b : Bool)
    (hfree : ∀ id n, i = .signal id → Registry.lookup s.sig id ≠ some (.free n)) (ht : exec i s = .next t) :
    ∃ b', exec i (s.setHalted b) = .next (t.setHalted b') := by
  by_cases hc : i.CallsHandler s
  · obtain ⟨id, h, rfl, hl⟩ := hc
    have hcall (u : State) (hu : u.sig = s.sig) : exec (.signal id) u = callHandler id h u := by
      simp only [exec, execSignal, hu, hl]
    rw [hcall s rfl] at ht
    rw [hcall (s.setHalted b) rfl]
    exact callHandler_setHalted (fun n hn => hfree id n rfl (hn ▸ hl)) b ht
  · exact ⟨b, (unobserved_setHalted _ b).exec_next hc ht⟩

/-- A step on a state with another `halted` fetches the same word and runs what it decodes to on that state (R35). -/
theorem step_setHalted_fetches {s : State} {i : Instr} (b : Bool) (h : s.Fetches i) :
    step (s.setHalted b) = exec i ((advance s).setHalted b) :=
  step_fetches (s := s.setHalted b) h

theorem step_setHalted {s t : State} (b : Bool)
    (hfree : ∀ id n, s.Fetches (.signal id) → Registry.lookup s.sig id ≠ some (.free n)) (ht : step s = .next t) :
    ∃ b', step (s.setHalted b) = .next (t.setHalted b') := by
  rcases step_cases s with ⟨hout, hs⟩ | ⟨hin, hd, hs⟩ | ⟨i, hi, hs⟩ <;> rw [hs] at ht
  · cases ht
    exact ⟨b, step_fetch_out (s := s.setHalted b) hout⟩
  · cases ht
    exact ⟨b, step_invalid (s := s.setHalted b) hin hd⟩
  · rw [step_setHalted_fetches b hi]
    exact exec_setHalted b (fun id n hid => hfree id n (hid ▸ hi)) ht

/-- Without a handler's call, a step leaves `halted` (R35). -/
theorem step_keeps_halted {s t : State} (hc : ∀ i, s.Fetches i → ¬ i.CallsHandler s) (ht : step s = .next t) :
    t.halted = s.halted := by
  rcases step_next_cases ht with ⟨e, rfl⟩ | ⟨e, rfl⟩ | ⟨i, hi, hexec⟩
  · rfl
  · rfl
  · obtain ⟨-, hhalted, -, -⟩ := exec_keepsControl (s := advance s) (hc i hi) hexec
    exact hhalted

/-- Settles O25: the step on another `halted` ends in the same state up to `halted`. -/
theorem haltedIsNeverRead : Obligations.HaltedIsNeverRead := by
  unfold Obligations.HaltedIsNeverRead
  refine ⟨fun s b i hi => step_setHalted_fetches b hi, fun s t b hfree ht => ?_, fun s t hc ht =>
    step_keeps_halted hc ht⟩
  obtain ⟨b', hs⟩ := step_setHalted b hfree ht
  exact ⟨t.setHalted b', hs, rfl⟩

end Sys2Proof.Machine
end

section
/-! PROOFS. The memory (20_memory.md): what a checked operation that ended says of its bounds and of the state it left,
the bytes of a stored word, and steps of a machine and of its mirror under the other byte order. -/

namespace Sys2Proof.Machine

/-! ## The checked operations -/

theorem memRead_in {s : State} {a : Nat} (h : a < s.capacity) : memRead a s = .ok (Memory.read s.mem a) s := by
  simp [memRead, h]

theorem memRead_out {s : State} {a : Nat} (h : s.capacity ≤ a) : memRead a s = .raised (.outOfBoundsAccess a) s := by
  simp [memRead, h]

/-- Each checked operation is a test of its bounds, and when the test fails it raises in the state it was given
(R59). -/
theorem eq_of_checked_raised {α : Type} {p : Prop} [Decidable p] {v : α} {s t u : State} {d e : StepError}
    (h : (if p then Ran.ok v u else Ran.raised d s) = .raised e t) : t = s := by
  split at h <;> cases h
  rfl

/-- A checked read that succeeds leaves the state it was given (R53, R56). -/
theorem eq_of_checked_ok {α : Type} {p : Prop} [Decidable p] {v w : α} {s t : State} {d : StepError}
    (h : (if p then Ran.ok v s else Ran.raised d s) = .ok w t) : t = s := by
  split at h <;> cases h
  rfl

/-- A byte write that succeeds was in bounds and set the one byte (R54). -/
theorem memWrite_ok {a : Nat} {b : Byte} {s t : State} (h : memWrite a b s = .ok () t) :
    a < s.capacity ∧ t = s.setMem (Memory.write s.mem a b) := by
  rcases Nat.lt_or_ge a s.capacity with ha | ha
  · rw [memWrite_in b ha] at h
    cases h
    exact ⟨ha, rfl⟩
  · rw [memWrite_out b ha] at h
    cases h

/-- A 16-bit write that succeeds was in bounds and stored the word (R57). -/
theorem memWrite16_ok {a : Nat} {v : Word} {s t : State} (h : memWrite16 a v s = .ok () t) :
    a + 1 < s.capacity ∧ t = s.storeWord a v := by
  rcases Nat.lt_or_ge (a + 1) s.capacity with ha | ha
  · rw [memWrite16_in v ha] at h
    cases h
    exact ⟨ha, rfl⟩
  · rw [memWrite16_out v ha] at h
    cases h

/-- R64 (a) for a word. -/
theorem memRead16_of_memWrite16 {a : Nat} {v : Word} {s t : State} (h : memWrite16 a v s = .ok () t) :
    memRead16 a t = .ok v t := by
  obtain ⟨ha, rfl⟩ := memWrite16_ok h
  rw [memRead16_in (by simpa using ha), State.wordAt_storeWord_self]

/-- R64 (a) for a byte. -/
theorem memRead_of_memWrite {a : Nat} {b : Byte} {s t : State} (h : memWrite a b s = .ok () t) :
    memRead a t = .ok b t := by
  obtain ⟨ha, rfl⟩ := memWrite_ok h
  rw [memRead_in (by simpa using ha), State.setMem_mem, Memory.read_write_self]

/-! ## The bytes of a word -/

theorem firstByte_eq_ite (o : ByteOrder) (v : Word) :
    firstByte o v = if o = .be then highByte v else lowByte v := by
  cases o <;> rfl

theorem secondByte_eq_ite (o : ByteOrder) (v : Word) :
    secondByte o v = if o = .be then lowByte v else highByte v := by
  cases o <;> rfl

theorem joinBytes_eq_ite (o : ByteOrder) (b c : Byte) : joinBytes o b c = if o = .be then b ++ c else c ++ b := by
  cases o <;> rfl

theorem State.read_storeWord_first (s : State) (a : Nat) (v : Word) :
    Memory.read (s.storeWord a v).mem a = firstByte s.cfg.byteOrder v := by
  rw [State.storeWord_mem, Memory.read_write_of_ne _ _ (by omega), Memory.read_write_self]

theorem State.read_storeWord_second (s : State) (a : Nat) (v : Word) :
    Memory.read (s.storeWord a v).mem (a + 1) = secondByte s.cfg.byteOrder v := by
  rw [State.storeWord_mem, Memory.read_write_self]

/-! ## The obligations on the operations -/

/-- Settles O10: the capacity is at most 64 KiB, so the second byte of an access at 0xFFFF is always out of bounds. -/
theorem wordAccessAtTopAddressAlwaysFails : Obligations.WordAccessAtTopAddressAlwaysFails := by
  unfold Obligations.WordAccessAtTopAddressAlwaysFails
  intro s v
  have hout : s.capacity ≤ 0xFFFF + 1 := s.capacity_le
  refine ⟨memRead16_out hout, memWrite16_out v hout, fun hpc => ?_⟩
  have haddr : s.pcAddr = 0xFFFF := congrArg addressOf hpc
  rw [step_fetch_out (haddr ▸ hout), haddr]

/-- Settles O13, each clause by the lemma of the operation in or out of bounds. -/
theorem memoryOperationsFailExactlyOutOfBounds : Obligations.MemoryOperationsFailExactlyOutOfBounds := by
  unfold Obligations.MemoryOperationsFailExactlyOutOfBounds
  intro s addr b v
  exact ⟨fun h => ⟨⟨_, memRead_in h⟩, _, memWrite_in b h⟩, fun h => ⟨memRead_out h, memWrite_out b h⟩,
    fun h => ⟨⟨_, memRead16_in h⟩, _, memWrite16_in v h⟩, fun h => ⟨memRead16_out h, memWrite16_out v h⟩⟩

/-- Settles O9: the fetch is the 16-bit read at PC, and a word store leaves PC. -/
theorem fetchSeesLatestStore : Obligations.FetchSeesLatestStore := by
  unfold Obligations.FetchSeesLatestStore
  intro s t v h
  have hpc : t.pcAddr = s.pcAddr := by
    obtain ⟨-, rfl⟩ := memWrite16_ok h
    exact State.pcAddr_storeWord s _ v
  rw [fetch, hpc, memRead16_of_memWrite16 h]

/-- Settles O14: the reads by definition, the writes by the bytes they leave and the frame of the store. -/
theorem memoryOperationsReadAndWriteBytes : Obligations.MemoryOperationsReadAndWriteBytes := by
  unfold Obligations.MemoryOperationsReadAndWriteBytes
  intro s addr b v
  refine ⟨rfl, ?_, ?_, ?_⟩
  · split
    next h =>
      exact ⟨_, memWrite_in b h, Memory.read_write_self _ _ _, State.keepsBytesBut_write s addr b, rfl⟩
    next h => exact memWrite_out b (not_lt.1 h)
  · rw [← joinBytes_eq_ite]
    rfl
  · split
    next h =>
      rw [← firstByte_eq_ite, ← secondByte_eq_ite]
      exact ⟨_, memWrite16_in v h, State.read_storeWord_first s addr v, State.read_storeWord_second s addr v,
        State.keepsBytesBut_storeWord s addr v, rfl⟩
    next h => exact memWrite16_out v (not_lt.1 h)

/-- Settles O15: the round trips and frames by what a successful write stored, the rest by the shape of a checked
operation. -/
theorem memoryLaws : Obligations.MemoryLaws := by
  unfold Obligations.MemoryLaws
  refine ⟨fun _ _ _ _ => memRead16_of_memWrite16, fun _ _ _ _ => memRead_of_memWrite, ?_, ?_, ?_,
    fun _ _ _ _ => eq_of_checked_ok, fun _ _ _ _ => eq_of_checked_ok⟩
  · intro s t a c b h hc
    obtain ⟨-, rfl⟩ := memWrite_ok h
    exact Memory.read_write_of_ne _ _ hc
  · intro s t a c v h hc hc'
    obtain ⟨-, rfl⟩ := memWrite16_ok h
    exact State.read_storeWord_of_ne _ _ hc hc'
  · rintro s t a b v e (h | h | h | h) <;> exact eq_of_checked_raised h

/-- Settles O16: of the first word the second write leaves the first byte, and its own first byte stands behind it. -/
theorem overlappingWordWritesMixBytes : Obligations.OverlappingWordWritesMixBytes := by
  unfold Obligations.OverlappingWordWritesMixBytes
  intro s t u a v w hv hw
  refine ⟨?_, memRead16_of_memWrite16 hw, ?_⟩ <;> obtain ⟨hin, rfl⟩ := memWrite16_ok hv
  · obtain ⟨-, rfl⟩ := memWrite16_ok hw
    rw [memRead16_in (by simpa using hin), State.wordAt, State.read_storeWord_first,
      State.read_storeWord_of_ne _ _ (by omega) (by omega), State.read_storeWord_first]
    simp only [State.storeWord_cfg]
    cases s.cfg.byteOrder <;> rfl
  · rw [memRead_in (by simp only [State.storeWord_capacity]; omega), State.read_storeWord_first]
    cases s.cfg.byteOrder <;> rfl

/-! ## The mirrored machine -/

theorem firstByte_otherOrder (o : ByteOrder) (v : Word) : firstByte (otherOrder o) v = secondByte o v := by
  cases o <;> rfl

theorem secondByte_otherOrder (o : ByteOrder) (v : Word) : secondByte (otherOrder o) v = firstByte o v := by
  cases o <;> rfl

theorem joinBytes_otherOrder (o : ByteOrder) (b c : Byte) : joinBytes (otherOrder o) b c = joinBytes o c b := by
  cases o <;> rfl

theorem pairAddr_even {a : Nat} (ha : a % 2 = 0) : pairAddr a = a + 1 := if_pos ha

theorem pairAddr_succ_even {a : Nat} (ha : a % 2 = 0) : pairAddr (a + 1) = a := if_neg (by omega)

/-- Words at even addresses do not overlap: the partner of a byte outside one lies outside it as well. -/
theorem pairAddr_outside_word {a c : Nat} (ha : a % 2 = 0) (h : c ≠ a) (h' : c ≠ a + 1) :
    pairAddr c ≠ a ∧ pairAddr c ≠ a + 1 := by
  unfold pairAddr
  split <;> omega

section MirroredStates

variable {s t : State}

theorem State.MirroredBy.capacity (h : s.MirroredBy t) : t.capacity = s.capacity := by
  obtain ⟨hcfg, -⟩ := h
  rw [State.capacity, hcfg]
  rfl

theorem State.MirroredBy.encoding (h : s.MirroredBy t) : t.cfg.encoding = s.cfg.encoding := by
  obtain ⟨hcfg, -⟩ := h
  rw [hcfg]

theorem State.MirroredBy.sig (h : s.MirroredBy t) : t.sig = s.sig := by
  obtain ⟨-, -, -, -, hsig, -⟩ := h
  exact hsig

theorem State.MirroredBy.getReg (h : s.MirroredBy t) (r : Reg) : t.getReg r = s.getReg r := by
  obtain ⟨-, hx, -⟩ := h
  rw [State.getReg, hx, State.getReg]

theorem State.MirroredBy.pcAddr (h : s.MirroredBy t) : t.pcAddr = s.pcAddr := congrArg addressOf (h.getReg .pc)

theorem State.MirroredBy.spAddr (h : s.MirroredBy t) : t.spAddr = s.spAddr := congrArg addressOf (h.getReg .sp)

theorem State.MirroredBy.setReg (h : s.MirroredBy t) (r : Reg) (v : Word) :
    (s.setReg r v).MirroredBy (t.setReg r v) := by
  obtain ⟨hcfg, hx, hrest⟩ := h
  exact ⟨hcfg, congrArg (fun x => x.set r v) hx, hrest⟩

theorem State.MirroredBy.answer (h : s.MirroredBy t) (q : StepResult) : (s.answer q).MirroredBy (t.answer q) := by
  obtain ⟨hcfg, hx, hmem, hhalted, hsig, -, hdraws⟩ := h
  exact ⟨hcfg, hx, hmem, hhalted, hsig, rfl, hdraws⟩

theorem State.MirroredBy.advance (h : s.MirroredBy t) :
    (Machine.advance s).MirroredBy (Machine.advance t) := by
  rw [Machine.advance, Machine.advance, h.getReg]
  exact h.setReg .pc _

/-- The two machines hold the same word at an even address (R65). -/
theorem State.MirroredBy.wordAt (h : s.MirroredBy t) {a : Nat} (ha : a % 2 = 0) : t.wordAt a = s.wordAt a := by
  obtain ⟨hcfg, -, hmem, -⟩ := h
  rw [State.wordAt, hmem, hmem, pairAddr_even ha, pairAddr_succ_even ha, hcfg, joinBytes_otherOrder, State.wordAt]

/-- A word stored at an even address is the same word in both machines, so they stay mirrored (R65). -/
theorem State.MirroredBy.storeWord (h : s.MirroredBy t) {a : Nat} (ha : a % 2 = 0) (v : Word) :
    (s.storeWord a v).MirroredBy (t.storeWord a v) := by
  obtain ⟨hcfg, hx, hmem, hrest⟩ := h
  refine ⟨hcfg, hx, fun c => ?_, hrest⟩
  by_cases hfirst : c = a
  · rw [hfirst, pairAddr_even ha, State.read_storeWord_first, State.read_storeWord_second, hcfg, firstByte_otherOrder]
  · by_cases hsecond : c = a + 1
    · rw [hsecond, pairAddr_succ_even ha, State.read_storeWord_first, State.read_storeWord_second, hcfg,
        secondByte_otherOrder]
    · obtain ⟨hpair, hpair'⟩ := pairAddr_outside_word ha hfirst hsecond
      rw [State.read_storeWord_of_ne t v hfirst hsecond, State.read_storeWord_of_ne s v hpair hpair', hmem]

end MirroredStates

/-! ## Statements run on mirrored machines -/

/-- Two runs of a sequence of statements that end alike, with the same value or error, in mirrored states. -/
inductive Ran.Mirrored {α : Type} : Ran α → Ran α → Prop where
  | ok (v : α) {s t : State} : s.MirroredBy t → Ran.Mirrored (.ok v s) (.ok v t)
  | raised (e : StepError) {s t : State} : s.MirroredBy t → Ran.Mirrored (.raised e s) (.raised e t)

/-- What comes next has to run alike only on the states the first statement can leave. -/
theorem Ran.Mirrored.andThen {α β : Type} {p q : Ran α} {k : α → State → Ran β} (h : p.Mirrored q)
    (hk : ∀ v s t, p = .ok v s → s.MirroredBy t → (k v s).Mirrored (k v t)) :
    (p.andThen k).Mirrored (q.andThen k) := by
  cases h with
  | ok v hst => exact hk v _ _ rfl hst
  | raised e hst => exact .raised e hst

theorem Ran.Mirrored.finish {p q : Ran Unit} (h : p.Mirrored q) {u : State} (hu : p.finish = .next u) :
    ∃ v, q.finish = .next v ∧ u.MirroredBy v := by
  cases h with
  | ok _ hst | raised _ hst =>
    cases hu
    exact ⟨_, rfl, hst.answer _⟩

section MirroredStatements

variable {s t : State}

theorem State.MirroredBy.push (h : s.MirroredBy t) (hsp : s.spAddr % 2 = 0) (v : Word) :
    (Machine.push v s).Mirrored (Machine.push v t) := by
  rcases Nat.lt_or_ge (s.spAddr + 1) s.capacity with hin | hout
  · rw [push_in v hin, push_in v (by rwa [h.spAddr, h.capacity]), h.spAddr, h.getReg]
    exact .ok () ((h.storeWord hsp v).setReg .sp _)
  · rw [push_out v hout, push_out v (by rwa [h.spAddr, h.capacity]), h.spAddr]
    exact .raised _ h

theorem State.MirroredBy.pop (h : s.MirroredBy t) (hsp : s.spAddr % 2 = 0) :
    (Machine.pop s).Mirrored (Machine.pop t) := by
  rcases Nat.lt_or_ge s.spAddr 2 with hlow | hlow
  · rw [pop_underflow hlow, pop_underflow (h.spAddr ▸ hlow)]
    exact .raised _ h
  · have hsub : (s.spAddr - 2) % 2 = 0 := by omega
    rcases Nat.lt_or_ge (s.spAddr - 1) s.capacity with hin | hout
    · rw [pop_in hlow hin, pop_in (h.spAddr ▸ hlow) (by rwa [h.spAddr, h.capacity]), h.spAddr, h.getReg,
        h.wordAt hsub]
      exact .ok _ (h.setReg .sp _)
    · rw [pop_out hlow hout, pop_out (h.spAddr ▸ hlow) (by rwa [h.spAddr, h.capacity]), h.spAddr, h.getReg]
      exact .raised _ (h.setReg .sp _)

/-- A pop leaves an even SP even, so what follows it stays at even addresses too (R65). -/
theorem pop_spAddr_even {v : Word} (hsp : s.spAddr % 2 = 0) (hp : pop s = .ok v t) : t.spAddr % 2 = 0 := by
  rcases pop_cases s with ⟨-, hp'⟩ | ⟨-, -, hp'⟩ | ⟨hlow, -, hp'⟩ <;> cases hp'.symm.trans hp
  rw [State.spAddr_setReg_sp, State.addressOf_sp_sub_two hlow]
  omega

/-- An instruction's own statements access memory through `Push` and `Pop` only, at SP. -/
theorem State.MirroredBy.statementsOf (h : s.MirroredBy t) (hsp : s.spAddr % 2 = 0) (i : Instr) :
    (Machine.statementsOf i s).Mirrored (Machine.statementsOf i t) := by
  cases i with
  | nop => exact .ok () h
  | push imm8 => exact h.push hsp _
  | popReg r => exact (h.pop hsp).andThen fun v _ _ _ hst => .ok () (hst.setReg r v)
  | pushReg r =>
    rw [Machine.statementsOf, Machine.statementsOf, h.getReg]
    exact h.push hsp _
  | addStack =>
    refine (h.pop hsp).andThen fun a s' t' hp hst => ?_
    have hsp' := pop_spAddr_even hsp hp
    exact (hst.pop hsp').andThen fun b s'' t'' hp' hst' => hst'.push (pop_spAddr_even hsp' hp') _
  | addReg r1 r2 =>
    rw [Machine.statementsOf, Machine.statementsOf, h.getReg, h.getReg]
    exact .ok () (h.setReg r1 _)
  | signal id => exact .raised _ h
  | jmp r =>
    rw [Machine.statementsOf, Machine.statementsOf, h.getReg]
    exact .ok () (h.setReg .pc _)

theorem State.MirroredBy.exec_next (h : s.MirroredBy t) (hsp : s.spAddr % 2 = 0) {i : Instr}
    (hc : ¬ i.CallsHandler s) {u : State} (hu : exec i s = .next u) : ∃ v, exec i t = .next v ∧ u.MirroredBy v := by
  have hc' : ¬ i.CallsHandler t := by rwa [Instr.CallsHandler, h.sig]
  rw [exec_eq_finish_statementsOf hc] at hu
  rw [exec_eq_finish_statementsOf hc']
  exact (h.statementsOf hsp i).finish hu

end MirroredStatements

/-- Settles O31: mirrored machines fetch the same word at an even PC, fail alike, and run the same instruction on
mirrored states. -/
theorem byteOrderIsUnobservableAtEvenAddresses : Obligations.ByteOrderIsUnobservableAtEvenAddresses := by
  unfold Obligations.ByteOrderIsUnobservableAtEvenAddresses
  intro s t u h hpc hsp hc hu
  have hword : t.wordAt t.pcAddr = s.wordAt s.pcAddr := by rw [h.pcAddr, h.wordAt hpc]
  rcases step_cases s with ⟨hout, hs⟩ | ⟨hin, hd, hs⟩ | ⟨i, hi, hs⟩ <;> rw [hs] at hu
  · cases hu
    have hout' : t.capacity ≤ t.pcAddr + 1 := by rwa [h.capacity, h.pcAddr]
    rw [step_fetch_out hout', h.pcAddr]
    exact ⟨_, rfl, h.answer _⟩
  · cases hu
    have hin' : t.pcAddr + 1 < t.capacity := by rwa [h.capacity, h.pcAddr]
    have hd' : ∀ i, decode t.cfg.encoding (t.wordAt t.pcAddr) ≠ .ok i := by rwa [h.encoding, hword]
    rw [step_invalid hin' hd', hword]
    exact ⟨_, rfl, h.advance.answer _⟩
  · have hi' : t.Fetches i := by rwa [State.Fetches, h.capacity, h.encoding, hword, h.pcAddr]
    rw [step_fetches hi']
    exact h.advance.exec_next (by rwa [advance_spAddr]) (hc i hi) hu

end Sys2Proof.Machine
end

section
/-! PROOFS. The encoding (30_encoding.md): the decoder read as two lookups, an opcode and then the operand form of that
opcode, and each lookup against the bytes the encoder writes. -/

namespace Sys2Proof

/-! ## The two lookups of the decoder -/

/-- The instruction of an opcode with an operand byte, by the opcode's form (R82, R90). -/
def Encoding.instrAt (e : Encoding) (lo : Byte) : Op → Option Instr
  | .nop => some .nop
  | .push => some (.push lo)
  | .popReg => (e.regAt lo.toNat).map .popReg
  | .pushReg => (e.regAt lo.toNat).map .pushReg
  | .addStack => some .addStack
  | .addReg => (e.regAt (highNibble lo).toNat).bind fun r1 => (e.regAt (lowNibble lo).toNat).map (.addReg r1)
  | .signal => some (.signal lo)
  | .jmp => (e.regAt lo.toNat).map .jmp

/-- The decoder looks up the opcode, then reads the operand in its form (R90). -/
theorem decode_eq_orInvalid (e : Encoding) (w : Word) :
    decode e w = orInvalid w ((e.opAt (opcodeByte w)).bind (e.instrAt (operandByte w))) := by
  unfold decode
  cases e.opAt (opcodeByte w) with
  | none => rfl
  | some o => cases o <;> rfl

theorem orInvalid_eq_ok_iff {w : Word} {i : Instr} {x : Option Instr} : orInvalid w x = .ok i ↔ x = some i := by
  cases x <;> simp [orInvalid]

theorem Encoding.opAt_eq_some_iff {e : Encoding} (h : e.wf) {b : Byte} {o : Op} :
    e.opAt b = some o ↔ e.opcode o = b := by
  refine ⟨Encoding.opAt_eq_some, ?_⟩
  rintro rfl
  exact Encoding.opAt_opcode h o

/-- A word decodes to an instruction when its high byte is some opcode's and that opcode's form reads its low byte as
the instruction. -/
theorem decode_eq_ok_iff {e : Encoding} (h : e.wf) {w : Word} {i : Instr} :
    decode e w = .ok i ↔ ∃ o, e.opcode o = opcodeByte w ∧ e.instrAt (operandByte w) o = some i := by
  simp only [decode_eq_orInvalid, orInvalid_eq_ok_iff, Option.bind_eq_some_iff, Encoding.opAt_eq_some_iff h]

/-! ## Encode, then decode -/

/-- The form of an instruction's own opcode reads its canonical operand byte as the instruction (R82, R91). -/
theorem Encoding.instrAt_encodeOperand {e : Encoding} (h : e.wf) (i : Instr) :
    e.instrAt (encodeOperand e i) i.op = some i := by
  cases i with
  | nop | addStack | push _ | signal _ => rfl
  | popReg r => exact congrArg (Option.map Instr.popReg) (Laws.OperandReadsBack.popReg r e h)
  | pushReg r => exact congrArg (Option.map Instr.pushReg) (Laws.OperandReadsBack.pushReg r e h)
  | jmp r => exact congrArg (Option.map Instr.jmp) (Laws.OperandReadsBack.jmp r e h)
  | addReg r1 r2 =>
    obtain ⟨h1, h2⟩ := Laws.OperandReadsBack.addReg r1 r2 e h
    simp only [Encoding.instrAt, Instr.op, h1, h2, Option.bind_some, Option.map_some]

/-- Settles O1: the high byte finds the instruction's opcode again, and its form reads the operand byte back. -/
theorem encodeThenDecodeGivesInstruction : Obligations.EncodeThenDecodeGivesInstruction := by
  unfold Obligations.EncodeThenDecodeGivesInstruction
  intro e i h
  rw [decode_eq_ok_iff h, opcodeByte_encode, operandByte_encode]
  exact ⟨i.op, rfl, Encoding.instrAt_encodeOperand h i⟩

/-! ## Decode, then encode -/

/-- A field that names a register holds the register's number and nothing above it (R85, R89). -/
theorem Encoding.num_setWidth_of_regAt {e : Encoding} {n : Nat} {field : BitVec n} {r : Reg} (hn : 3 ≤ n)
    (hr : e.regAt field.toNat = some r) : (e.num r).setWidth n = field :=
  BitVec.eq_of_toNat_eq ((BitVec.toNat_setWidth_of_le hn).trans (Encoding.regAt_eq_some hr).2)

/-- A byte is its two nibbles. -/
theorem highNibble_append_lowNibble (lo : Byte) : (highNibble lo ++ lowNibble lo : BitVec (4 + 4)) = lo := by
  rw [highNibble, lowNibble, BitVec.extractLsb'_append_extractLsb'_eq_extractLsb' (by rfl), BitVec.extractLsb'_eq_self]

/-- What a form read from an operand byte is an instruction of its own opcode, whose canonical operand byte is the one
read, or 0 in form N (R89 (a), R91). -/
theorem Encoding.encodeOperand_of_instrAt {e : Encoding} {lo : Byte} {o : Op} {i : Instr}
    (hi : e.instrAt lo o = some i) :
    i.op = o ∧ encodeOperand e i = if i = .nop ∨ i = .addStack then 0#8 else lo := by
  cases o with
  | nop | addStack | push | signal =>
    cases hi
    exact ⟨rfl, by simp [encodeOperand]⟩
  | popReg | pushReg | jmp =>
    obtain ⟨r, hr, rfl⟩ := Option.map_eq_some_iff.1 hi
    exact ⟨rfl, by simpa [encodeOperand] using Encoding.num_setWidth_of_regAt (by decide) hr⟩
  | addReg =>
    obtain ⟨r1, h1, hi⟩ := Option.bind_eq_some_iff.1 hi
    obtain ⟨r2, h2, rfl⟩ := Option.map_eq_some_iff.1 hi
    refine ⟨rfl, ?_⟩
    rw [encodeOperand, Encoding.num_setWidth_of_regAt (by decide) h1, Encoding.num_setWidth_of_regAt (by decide) h2,
      highNibble_append_lowNibble]
    simp

/-- Settles O2: the opcode found is the instruction's own, and its form determines the operand byte it read. -/
theorem decodeThenEncodeGivesWord : Obligations.DecodeThenEncodeGivesWord := by
  unfold Obligations.DecodeThenEncodeGivesWord
  intro e w i h hd
  obtain ⟨o, ho, hi⟩ := (decode_eq_ok_iff h).1 hd
  obtain ⟨rfl, hlo⟩ := Encoding.encodeOperand_of_instrAt hi
  rw [opcodeByte_encode, operandByte_encode]
  exact ⟨ho, hlo⟩

/-! ## High bytes outside the eight -/

theorem decode_of_opcode_ne {e : Encoding} {w : Word} (h : ∀ o, e.opcode o ≠ opcodeByte w) :
    decode e w = .error (.invalidOpcode w) := by
  rw [decode_eq_orInvalid, Encoding.opAt_eq_none.2 h]
  rfl

/-- The reference opcode bytes are the first eight (R84, D1). -/
theorem Encoding.reference_opcode_lt (o : Op) : (Encoding.reference.opcode o).toNat < 8 := by
  cases o <;> decide

theorem Instr.exists_op_eq (o : Op) : ∃ i : Instr, i.op = o := by
  cases o with
  | nop => exact ⟨.nop, rfl⟩
  | push => exact ⟨.push 0, rfl⟩
  | popReg => exact ⟨.popReg .a, rfl⟩
  | pushReg => exact ⟨.pushReg .a, rfl⟩
  | addStack => exact ⟨.addStack, rfl⟩
  | addReg => exact ⟨.addReg .a .a, rfl⟩
  | signal => exact ⟨.signal 0, rfl⟩
  | jmp => exact ⟨.jmp .a, rfl⟩

/-- Settles O3: the first three clauses say of a byte that it is no opcode's; for the last, the canonical word of an
instruction with the opcode decodes. -/
theorem highByteOutsideTheEightIsInvalidOpcode : Obligations.HighByteOutsideTheEightIsInvalidOpcode := by
  unfold Obligations.HighByteOutsideTheEightIsInvalidOpcode
  refine ⟨fun e w h => ?_, fun e w h hb => ?_, fun w hb => ?_, fun e o h => ?_⟩
  · exact decode_of_opcode_ne fun o => h o (Op.mem_all o)
  · obtain ⟨-, hF0, -⟩ := h
    exact decode_of_opcode_ne fun o => hb ▸ hF0 o (Op.mem_all o)
  · exact decode_of_opcode_ne fun o ho => absurd (Encoding.reference_opcode_lt o) (by rw [ho]; omega)
  · obtain ⟨i, rfl⟩ := Instr.exists_op_eq o
    exact ⟨encode e i, i, opcodeByte_encode e i, encodeThenDecodeGivesInstruction e i h, rfl⟩

/-! ## The legal words -/

/-- Eight distinct numbers of three bits are all of them, so every number up to 7 names a register (R12, R85). -/
theorem Encoding.num_surjective {e : Encoding} (h : e.wf) (n : BitVec 3) : ∃ r, e.num r = n := by
  obtain ⟨-, -, hnodup⟩ := h
  have hcard : (Reg.all.map e.num).toFinset.card = Fintype.card (BitVec 3) := List.toFinset_card_of_nodup hnodup
  have hmem : n ∈ (Reg.all.map e.num).toFinset := Finset.eq_univ_of_card _ hcard ▸ Finset.mem_univ n
  obtain ⟨r, -, hr⟩ := List.mem_map.1 (List.mem_toFinset.1 hmem)
  exact ⟨r, hr⟩

/-- A field names a register when it is at most 7 (R89 (b), D4). -/
theorem Encoding.isSome_regAt_iff {e : Encoding} (h : e.wf) {n : Nat} : (e.regAt n).isSome ↔ n ≤ 7 := by
  constructor
  · intro hs
    obtain ⟨r, hr⟩ := Option.isSome_iff_exists.1 hs
    exact (Encoding.regAt_eq_some hr).1
  · intro hn
    obtain ⟨r, hr⟩ := Encoding.num_surjective h (BitVec.ofNat 3 n)
    have hr' : (e.num r).toNat = n := by rw [hr, BitVec.toNat_ofNat, Nat.mod_eq_of_lt (by omega)]
    rw [← hr', Encoding.regAt_num h]
    rfl

/-- The operand bytes that are legal for an opcode, by its form (R82, R89). -/
def Op.Accepts (lo : Byte) : Op → Prop
  | .nop | .push | .addStack | .signal => True
  | .popReg | .pushReg | .jmp => lo.toNat ≤ 7
  | .addReg => (highNibble lo).toNat ≤ 7 ∧ (lowNibble lo).toNat ≤ 7

theorem Encoding.isSome_instrAt_iff {e : Encoding} (h : e.wf) {lo : Byte} (o : Op) :
    (e.instrAt lo o).isSome ↔ o.Accepts lo := by
  cases o with
  | nop | push | addStack | signal => exact iff_of_true rfl trivial
  | popReg | pushReg | jmp => exact (Bool.eq_iff_iff.1 Option.isSome_map).trans (Encoding.isSome_regAt_iff h)
  | addReg =>
    simp only [Encoding.instrAt, Op.Accepts, ← Encoding.isSome_regAt_iff h]
    cases e.regAt (highNibble lo).toNat <;> simp

theorem exists_decode_eq_ok_iff {e : Encoding} (h : e.wf) {w : Word} :
    (∃ i, decode e w = .ok i) ↔ ∃ o, e.opcode o = opcodeByte w ∧ o.Accepts (operandByte w) := by
  simp only [decode_eq_ok_iff h, ← Encoding.isSome_instrAt_iff h, Option.isSome_iff_exists]
  exact ⟨fun ⟨i, o, ho, hi⟩ => ⟨o, ho, i, hi⟩, fun ⟨o, ho, i, hi⟩ => ⟨i, o, ho, hi⟩⟩

/-- Settles O4: the three forms are the three kinds of operand byte an opcode accepts. -/
theorem decodeSucceedsExactlyOnLegalWords : Obligations.DecodeSucceedsExactlyOnLegalWords := by
  unfold Obligations.DecodeSucceedsExactlyOnLegalWords
  intro e w h
  refine ⟨(exists_decode_eq_ok_iff h).trans ⟨?_, ?_⟩, Machine.decode_error⟩
  · rintro ⟨o, ho, hlo⟩
    cases o with
    | nop | push | addStack | signal => exact .inl ⟨_, by decide, ho⟩
    | popReg | pushReg | jmp => exact .inr (.inl ⟨_, by decide, ho, hlo⟩)
    | addReg => exact .inr (.inr ⟨ho, hlo⟩)
  · rintro (⟨o, hform, ho⟩ | ⟨o, hform, ho, hlo⟩ | ⟨ho, hlo⟩)
    · exact ⟨o, ho, by fin_cases hform <;> trivial⟩
    · exact ⟨o, ho, by fin_cases hform <;> exact hlo⟩
    · exact ⟨.addReg, ho, hlo⟩

/-- Settles O5: the decoder evaluates on each word. -/
theorem writtenOutWordsDecodeAsListed : Obligations.WrittenOutWordsDecodeAsListed := by
  unfold Obligations.WrittenOutWordsDecodeAsListed
  decide

end Sys2Proof
end

section
/-! PROOFS. The step cycle (40_step_cycle.md): the advance and the three ways a step begins, the stack's symmetry, that
every step has an answer, the word the host places at PC, and the driver's loop. -/

namespace Sys2Proof.Machine

/-! ## Fetch, advance, decode -/

/-- The advance changes PC alone (R102). -/
theorem advance_differsInRegs (s : State) : s.DiffersInRegs [.pc] (advance s) :=
  (State.DiffersInRegs.refl [.pc] s).setReg (List.mem_singleton_self _) _

/-- Settles O6: the step of a fetched instruction, and the frame of the advance. -/
theorem stepRunsFetchedInstruction : Obligations.StepRunsFetchedInstruction := by
  unfold Obligations.StepRunsFetchedInstruction
  intro s i h
  exact ⟨step_fetches h, advance_pc s, advance_differsInRegs s⟩

/-- Settles O7: the recorded answer moves neither PC nor the capacity, so the next fetch fails alike. -/
theorem failedFetchChangesNothingAndRepeats : Obligations.FailedFetchChangesNothingAndRepeats := by
  unfold Obligations.FailedFetchChangesNothingAndRepeats
  intro s hout
  refine ⟨step_fetch_out hout, fun t ht => ?_⟩
  cases (step_fetch_out hout).symm.trans ht
  exact step_fetch_out (s := s.answer _) hout

/-- Settles O8: the state of a failed decode is the advanced one with the error recorded. -/
theorem failedDecodeAdvancesPcOnly : Obligations.FailedDecodeAdvancesPcOnly := by
  unfold Obligations.FailedDecodeAdvancesPcOnly
  intro s hin hd
  obtain ⟨hregs, hmem, hcontrol⟩ := (advance_differsInRegs s).answer (.err (.invalidOpcode (s.wordAt s.pcAddr)))
  refine ⟨_, step_invalid hin hd, rfl, advance_pc s, hregs, hmem, hcontrol, ?_⟩
  rw [fetch, State.answer_pcAddr, advance_pcAddr]

/-! ## Push and pop -/

theorem State.setReg_setReg_self (s : State) (r : Reg) (v w : Word) : (s.setReg r v).setReg r w = s.setReg r w :=
  congrArg (fun x => { s with x := x }) (RegFile.set_set_self s.x r v w)

theorem State.setReg_getReg_self (s : State) (r : Reg) : s.setReg r (s.getReg r) = s := by
  cases r <;> rfl

/-- A push that succeeds was in bounds, stored the word at SP and raised SP (R105). -/
theorem push_ok {v : Word} {s t : State} (h : push v s = .ok () t) :
    s.spAddr + 1 < s.capacity ∧ t = (s.storeWord s.spAddr v).setReg .sp (addWrap (s.getReg .sp) 2#16) := by
  rcases push_cases v s with ⟨hin, hp⟩ | ⟨-, hp⟩ <;> cases hp.symm.trans h
  exact ⟨hin, rfl⟩

theorem addressOf_addWrap_two {v : Word} (h : addressOf v + 2 < 65536) :
    addressOf (addWrap v 2#16) = addressOf v + 2 := by
  rw [addressOf, addWrap_toNat]
  exact Nat.mod_eq_of_lt h

/-- Without a wrap of SP, a pop undoes the push but for the stored word, which it gives back (R107 (a)). -/
theorem pop_of_push {v : Word} {s t : State} (h : push v s = .ok () t) (hwrap : s.spAddr + 2 < 65536) :
    pop t = .ok v (s.storeWord s.spAddr v) := by
  obtain ⟨hin, rfl⟩ := push_ok h
  have hsp : addressOf (addWrap (s.getReg .sp) 2#16) = s.spAddr + 2 := addressOf_addWrap_two hwrap
  have hback : addWrap (s.getReg .sp) 2#16 - 2#16 = (s.storeWord s.spAddr v).getReg .sp := by
    rw [addWrap_eq_add, BitVec.add_sub_cancel, State.storeWord_getReg]
  rw [pop_in (by rw [State.spAddr_setReg_sp, hsp]; omega) (by rw [State.spAddr_setReg_sp, hsp]; exact hin),
    State.spAddr_setReg_sp, hsp, Nat.add_sub_cancel, State.setReg_wordAt, State.wordAt_storeWord_self,
    State.getReg_setReg_self, State.setReg_setReg_self, hback, State.setReg_getReg_self]

/-- Settles O49: the state after both is the one before with the word stored, which changes no register. -/
theorem pushThenPopRestores : Obligations.PushThenPopRestores := by
  unfold Obligations.PushThenPopRestores
  intro s t v h hwrap
  refine ⟨_, pop_of_push h hwrap, rfl, ?_, fun _ _ => rfl⟩
  obtain ⟨-, rfl⟩ := push_ok h
  rfl

/-- Settles O50: 0xFFFE is the last address of a word in 64 KiB, and SP wraps from it to 0. -/
theorem pushAtTopOfFullMemoryThenPopUnderflows : Obligations.PushAtTopOfFullMemoryThenPopUnderflows := by
  unfold Obligations.PushAtTopOfFullMemoryThenPopUnderflows
  intro s v hkib hsp
  have hcap : s.capacity = 1024 * 64 := congrArg (1024 * ·) hkib
  have haddr : s.spAddr = 0xFFFE := congrArg addressOf hsp
  have hwrap : addWrap (s.getReg .sp) 2#16 = 0#16 := by rw [hsp]; rfl
  refine ⟨_, push_in v (by omega), ?_, pop_underflow ?_⟩
  · rw [State.getReg_setReg_self, hwrap]
  · rw [State.spAddr_setReg_sp, hwrap]
    decide

/-- Settles O51: SP is 0 after construction, below what `Pop` asks for. -/
theorem popUnderflowsOnFreshMachine : Obligations.PopUnderflowsOnFreshMachine := by
  unfold Obligations.PopUnderflowsOnFreshMachine
  intro c pc image g
  have hsp : (State.construct c pc image g).getReg .sp = 0#16 := RegFile.atReset_get_of_ne pc (by decide)
  refine ⟨pop_underflow ?_, hsp⟩
  rw [State.spAddr, hsp]
  decide

/-! ## Every step has an answer -/

/-- The end of an instruction's own statements records an answer (R7, R165). -/
theorem Ran.finish_answers (p : Ran Unit) : ∃ t, p.finish = .next t ∧ t.result ≠ .notStepped := by
  cases p with
  | ok _ s | raised _ s => exact ⟨_, rfl, nofun⟩

/-- A handler that breaks no duty returns, and the step answers `Ok` (R140, R144). -/
theorem callHandler_answers {h : Handler} (hduty : ∀ b, h ≠ .breaching b) (id : Byte) (s : State) :
    ∃ t, callHandler id h s = .next t ∧ t.result = .ok := by
  cases h with
  | scripted script | free name => exact ⟨_, rfl, rfl⟩
  | breaching b => exact absurd rfl (hduty b)

theorem exec_signal_of_lookup {s : State} {id : Byte} {h : Handler} (hl : Registry.lookup s.sig id = some h) :
    exec (.signal id) s = callHandler id h s := by
  simp only [exec, execSignal, hl]

theorem exec_answers {i : Instr} {s : State}
    (hduty : ∀ id b, i = .signal id → Registry.lookup s.sig id ≠ some (.breaching b)) :
    ∃ t, exec i s = .next t ∧ t.result ≠ .notStepped := by
  by_cases hc : i.CallsHandler s
  · obtain ⟨id, h, rfl, hl⟩ := hc
    rw [exec_signal_of_lookup hl]
    obtain ⟨t, ht, hok⟩ := callHandler_answers (fun b hb => hduty id b rfl (hb ▸ hl)) id s
    exact ⟨t, ht, by rw [hok]; nofun⟩
  · rw [exec_eq_finish_statementsOf hc]
    exact Ran.finish_answers _

/-- Settles O47: a failed fetch or decode answers its error, and an instruction answers by `exec_answers`. -/
theorem stepAlwaysAnswersUnlessHandlerBreachesDuty : Obligations.StepAlwaysAnswersUnlessHandlerBreachesDuty := by
  unfold Obligations.StepAlwaysAnswersUnlessHandlerBreachesDuty
  intro s hduty
  rcases step_cases s with ⟨-, hs⟩ | ⟨-, -, hs⟩ | ⟨i, hi, hs⟩
  · exact ⟨_, hs, nofun⟩
  · exact ⟨_, hs, nofun⟩
  · rw [hs]
    exact exec_answers (s := advance s) fun id b hid => hduty id b (hid ▸ hi)

/-! ## The placed word -/

/-- A word stored at PC is the next one fetched (R71). -/
theorem State.fetches_storeWord {s : State} {a : Nat} {v : Word} {i : Instr} (ha : s.pcAddr = a)
    (hin : a + 1 < s.capacity) (hd : decode s.cfg.encoding v = .ok i) : (s.storeWord a v).Fetches i := by
  subst ha
  exact ⟨hin, by rwa [State.pcAddr_storeWord, State.wordAt_storeWord_self]⟩

theorem decodeTableWord_eq_some {nbits w : Nat} {i : Instr} (h : decodeTableWord nbits w = some i) :
    decode Encoding.reference (BitVec.ofNat 16 (w % 2 ^ nbits)) = .ok i := by
  unfold decodeTableWord at h
  cases hd : decode Encoding.reference (BitVec.ofNat 16 (w % 2 ^ nbits)) with
  | ok j =>
    cases hd ▸ h
    rfl
  | error e => cases hd ▸ h

/-- Wherever the word is placed, the machine has the reference numbering and PC points at it, in bounds. -/
theorem State.withFetchWord_fetches {nbits w : Nat} {i : Instr} (h : decodeTableWord nbits w = some i) (s : State) :
    (s.withFetchWord nbits w).Fetches i := by
  have hd := decodeTableWord_eq_some h
  simp only [State.withFetchWord]
  split_ifs with hpc hzero
  · exact State.fetches_storeWord rfl hpc hd
  · exact State.fetches_storeWord rfl hzero hd
  · exact State.fetches_storeWord rfl (show 0 + 1 < Config.reference.capacity by decide) hd

/-- The machine with the numbering a placed word is written in. -/
def State.withReferenceNumbering (s : State) : State :=
  { s with cfg := { s.cfg with encoding := Encoding.reference } }

/-- Where a word can be fetched at PC, it is placed there. -/
theorem State.withFetchWord_of_inBounds {s : State} (hpc : s.inBounds16 s.pcAddr) (nbits w : Nat) :
    s.withFetchWord nbits w =
      s.withReferenceNumbering.storeWord s.pcAddr (BitVec.ofNat 16 (w % 2 ^ nbits)) :=
  if_pos hpc

/-- Settles O58: the placed word is fetched, and PC in bounds is the case that moves no register. -/
theorem placedWordRunsNext : Obligations.PlacedWordRunsNext := by
  unfold Obligations.PlacedWordRunsNext
  intro s nbits w i h
  refine ⟨step_fetches (State.withFetchWord_fetches h s), fun hpc => ?_⟩
  rw [State.withFetchWord_of_inBounds hpc]
  rfl

/-! ## The driver -/

theorem driverRun_succ_of_next {s t : State} (n : Nat) (hs : step s = .next t) :
    driverRun (n + 1) s = (driverTest t).getD (driverRun n t) := by
  rw [driverRun, hs]

theorem driverRun_succ_of_fault {s : State} {f : Fault} (n : Nat) (hs : step s = .fault f) :
    driverRun (n + 1) s = .stuck f := by
  rw [driverRun, hs]

theorem driverRun_succ_of_refused {s : State} {r : Refusal} (n : Nat) (hs : step s = .refused r) :
    driverRun (n + 1) s = .noMeaning r := by
  rw [driverRun, hs]

theorem driverTest_of_err {t : State} {e : StepError} (h : t.result = .err e) :
    driverTest t = some (.faulted e t) := by
  simp only [driverTest, h]

theorem driverTest_of_ok {t : State} (h : t.result = .ok) :
    driverTest t = if t.halted then some (.halted t) else none := by
  simp only [driverTest, h]

/-- Settles O56: the three verdicts of the driver's test after one step. -/
theorem driverStopsAtErrorOrHalt : Obligations.DriverStopsAtErrorOrHalt := by
  unfold Obligations.DriverStopsAtErrorOrHalt
  intro n s t hs _
  rw [driverRun_succ_of_next n hs]
  refine ⟨fun e he => ?_, fun hok hhalt => ?_, fun hok hhalt => ?_⟩
  · rw [driverTest_of_err he, Option.getD_some]
  · rw [driverTest_of_ok hok, if_pos hhalt, Option.getD_some]
  · rw [driverTest_of_ok hok, if_neg (by simp [hhalt]), Option.getD_none]

/-- Settles O57, by induction on the steps looked at: a run that has ended has at least one step, which either ended it
whatever number of steps is left, or left it to the remaining ones. -/
theorem driverVerdictIsFinal : Obligations.DriverVerdictIsFinal := by
  unfold Obligations.DriverVerdictIsFinal
  intro n k
  induction n with
  | zero => exact fun s h => absurd rfl (h s)
  | succ n ih =>
    intro s h
    rw [Nat.succ_add]
    cases hs : step s with
    | fault f => rw [driverRun_succ_of_fault _ hs, driverRun_succ_of_fault _ hs]
    | refused r => rw [driverRun_succ_of_refused _ hs, driverRun_succ_of_refused _ hs]
    | next t =>
      simp only [driverRun_succ_of_next _ hs] at h ⊢
      cases hv : driverTest t with
      | some v => rfl
      | none => exact ih t (by rwa [hv] at h)

end Sys2Proof.Machine
end

section
/-! PROOFS. NOP and the stack moves (41_stack_moves.md): what PUSH and PUSHREG share as the end of one `Push`, and what
POPREG answers in each case of `Pop`. -/

namespace Sys2Proof.Machine

/-- Settles O34: the recorded answer is the only field that differs. -/
theorem nopHasNoEffect : Obligations.NopHasNoEffect := by
  unfold Obligations.NopHasNoEffect
  intro s
  exact ⟨s.answer .ok, rfl, rfl, fun _ _ => rfl, fun _ => rfl, rfl, rfl, rfl, rfl⟩

/-! ## PUSH and PUSHREG -/

/-- The end of a `Push` of any value, with its frame: the effect of an instruction whose only statement it is (R105). -/
theorem push_finish_effect (v : Word) (s : State) :
    if s.spAddr + 1 < s.capacity then
      ∃ t, (push v s).finish = .next t ∧ t.result = .ok ∧ t.wordAt s.spAddr = v ∧
        t.getReg .sp = addWrap (s.getReg .sp) 2#16 ∧ s.KeepsRegsBut [.sp] t ∧ s.KeepsBytesBut s.spAddr 2 t ∧
        s.KeepsControl t
    else (push v s).finish = .next (s.answer (.err (.outOfBoundsAccess s.spAddr))) := by
  split
  next hin =>
    rw [push_in v hin, Ran.finish_ok]
    have hword := State.wordAt_storeWord_self s s.spAddr v
    have hsp := State.getReg_setReg_self (s.storeWord s.spAddr v) .sp (addWrap (s.getReg .sp) 2#16)
    have hregs := State.keepsRegsBut_setReg (s.storeWord s.spAddr v) .sp (addWrap (s.getReg .sp) 2#16)
    have hbytes := State.keepsBytesBut_storeWord s s.spAddr v
    exact ⟨_, rfl, rfl, hword, hsp, hregs, hbytes, rfl, rfl, rfl, rfl⟩
  next hout => rw [push_out v (not_lt.1 hout), Ran.finish_raised]

/-- The extension of an immediate adds a high byte of zeros (R15). -/
theorem zext16_toNat (b : Byte) : (zext16 b).toNat = b.toNat :=
  BitVec.toNat_setWidth_of_le (by decide)

/-- Settles O35: PUSH is the `Push` of the extended immediate. -/
theorem pushStoresZeroExtendedImmediate : Obligations.PushStoresZeroExtendedImmediate := by
  unfold Obligations.PushStoresZeroExtendedImmediate
  intro s imm8
  exact ⟨zext16_toNat imm8, push_finish_effect (zext16 imm8) s⟩

/-- Settles O36: PUSHREG is the `Push` of the register's value, read before SP moves. -/
theorem pushRegStoresRegister : Obligations.PushRegStoresRegister := by
  unfold Obligations.PushRegStoresRegister
  intro s r
  exact push_finish_effect (s.getReg r) s

/-! ## POPREG -/

theorem execPopReg_in {s : State} (r : Reg) (h : 2 ≤ s.spAddr) (h' : s.spAddr - 1 < s.capacity) :
    execPopReg r s =
      .next (((s.setReg .sp (s.getReg .sp - 2#16)).setReg r (s.wordAt (s.spAddr - 2))).answer .ok) := by
  rw [execPopReg, pop_in h h', Ran.andThen_ok, Ran.finish_ok]

theorem execPopReg_underflow {s : State} (r : Reg) (h : s.spAddr < 2) :
    execPopReg r s = .next (s.answer (.err .stackUnderflow)) := by
  rw [execPopReg, pop_underflow h, Ran.andThen_raised, Ran.finish_raised]

theorem execPopReg_out {s : State} (r : Reg) (h : 2 ≤ s.spAddr) (h' : s.capacity ≤ s.spAddr - 1) :
    execPopReg r s =
      .next ((s.setReg .sp (s.getReg .sp - 2#16)).answer (.err (.outOfBoundsAccess (s.spAddr - 2)))) := by
  rw [execPopReg, pop_out h h', Ran.andThen_raised, Ran.finish_raised]

/-- The decrement of `Pop` changes SP alone (R106). -/
theorem State.differsInRegs_lowerSp {rs : List Reg} (hsp : .sp ∈ rs) (s : State) :
    s.DiffersInRegs rs (s.setReg .sp (s.getReg .sp - 2#16)) :=
  (State.DiffersInRegs.refl rs s).setReg hsp _

/-- Once the underflow test has passed, the decrement of `Pop` lowers SP by two without a wrap (R106). -/
theorem State.spAddr_lowerSp {s : State} (h : 2 ≤ s.spAddr) :
    (s.setReg .sp (s.getReg .sp - 2#16)).spAddr = s.spAddr - 2 := by
  rw [State.spAddr_setReg_sp, State.addressOf_sp_sub_two h]

/-- Settles O37: the register's write comes after the decrement, so it holds the popped word even if it is SP. -/
theorem popRegLoadsRegister : Obligations.PopRegLoadsRegister := by
  unfold Obligations.PopRegLoadsRegister
  intro s r hlow hin
  have hdiffers := (State.differsInRegs_lowerSp (rs := [.sp, r]) (by simp) s).setReg (r := r) (by simp)
    (s.wordAt (s.spAddr - 2))
  obtain ⟨hregs, hmem, hcontrol⟩ := hdiffers.answer .ok
  refine ⟨_, execPopReg_in r hlow hin, rfl, State.getReg_setReg_self _ r _, fun hr => ?_, hregs, fun a => ?_, hcontrol⟩
  · rw [State.answer_spAddr, State.spAddr_setReg_of_ne _ _ hr, State.spAddr_lowerSp hlow]
  · rw [hmem]

/-- Settles O38: a failed `Pop` ends the instruction before its register is written. -/
theorem popRegErrorsLeaveRegisterUnwritten : Obligations.PopRegErrorsLeaveRegisterUnwritten := by
  unfold Obligations.PopRegErrorsLeaveRegisterUnwritten
  intro s r
  refine ⟨execPopReg_underflow r, fun hlow hout => ?_⟩
  obtain ⟨hregs, hmem, hcontrol⟩ := State.differsInRegs_lowerSp (rs := [.sp]) (by simp) s
  exact ⟨_, execPopReg_out r hlow hout, rfl, State.spAddr_lowerSp hlow, hregs, hmem, hcontrol⟩

end Sys2Proof.Machine
end

section
/-! PROOFS. ADDSTACK and ADDREG (42_arithmetic.md): the answer of ADDSTACK under each of the four conditions that
`execAddStack_cases` separates, and the one answer of ADDREG. -/

namespace Sys2Proof.Machine

/-! ## ADDSTACK -/

section AddStackAnswers

variable {s : State}

theorem execAddStack_underflow (h : s.spAddr < 2) :
    execAddStack s = .next (s.answer (.err .stackUnderflow)) := by
  rw [execAddStack, pop_underflow h, Ran.andThen_raised, Ran.finish_raised]

theorem execAddStack_out (h : 2 ≤ s.spAddr) (h' : s.capacity ≤ s.spAddr - 1) :
    execAddStack s =
      .next ((s.setReg .sp (s.getReg .sp - 2#16)).answer (.err (.outOfBoundsAccess (s.spAddr - 2)))) := by
  rw [execAddStack, pop_out h h', Ran.andThen_raised, Ran.finish_raised]

/-- The second `Pop` underflows on the state the first one left (R130). -/
theorem execAddStack_second_underflow (h : 2 ≤ s.spAddr) (hfour : s.spAddr < 4) (h' : s.spAddr - 1 < s.capacity) :
    execAddStack s = .next ((s.setReg .sp (s.getReg .sp - 2#16)).answer (.err .stackUnderflow)) := by
  have hsecond : (s.setReg .sp (s.getReg .sp - 2#16)).spAddr < 2 := by
    rw [State.spAddr_lowerSp h]
    omega
  rw [execAddStack, pop_in h h', Ran.andThen_ok, pop_underflow hsecond, Ran.andThen_raised, Ran.finish_raised]

theorem execAddStack_in (hfour : 4 ≤ s.spAddr) (hin : s.spAddr - 1 < s.capacity) :
    execAddStack s =
      .next (((s.storeWord (s.spAddr - 4)
        (addWrap (s.wordAt (s.spAddr - 4)) (s.wordAt (s.spAddr - 2)))).setReg .sp (s.getReg .sp - 2#16)).answer .ok) := by
  rcases execAddStack_cases s with ⟨hlow, -⟩ | ⟨-, hout, -⟩ | ⟨-, hlow, -, -⟩ | ⟨-, -, h⟩
  · omega
  · omega
  · omega
  · exact h

end AddStackAnswers

/-- Settles O39: the final state is the old one with the sum stored at S - 4 and SP lowered once. -/
theorem addStackReplacesTwoWordsBySum : Obligations.AddStackReplacesTwoWordsBySum := by
  unfold Obligations.AddStackReplacesTwoWordsBySum
  intro s hfour hin
  have haddr := State.addressOf_sp_sub_four hfour
  have hsp : addressOf (s.getReg .sp - 2#16) = s.spAddr - 2 := State.addressOf_sp_sub_two (by omega)
  refine ⟨_, execAddStack_in hfour hin, rfl, ?_, ?_, ?_, ?_, haddr, rfl, rfl, rfl, rfl⟩
  · rw [State.answer_wordAt, State.setReg_wordAt, State.wordAt_storeWord_self, addWrap_toNat]
  · rw [State.answer_spAddr, State.spAddr_setReg_sp, hsp]
  · exact State.keepsRegsBut_setReg (s.storeWord _ _) .sp _
  · rw [haddr]
    exact State.keepsBytesBut_storeWord s _ _

/-- Settles O40: an error of either `Pop` after the first decrement leaves SP lowered by 2 and nothing else changed. -/
theorem addStackErrorsInOrder : Obligations.AddStackErrorsInOrder := by
  unfold Obligations.AddStackErrorsInOrder
  intro s
  obtain ⟨hregs, hmem, hcontrol⟩ := State.differsInRegs_lowerSp (rs := [.sp]) (by simp) s
  refine ⟨execAddStack_underflow, fun hlow hout => ?_, fun hlow hfour hin => ?_⟩
  · exact ⟨_, execAddStack_out hlow hout, rfl, State.spAddr_lowerSp hlow, hregs, hmem, hcontrol⟩
  · exact ⟨_, execAddStack_second_underflow hlow hfour hin, rfl, State.spAddr_lowerSp hlow, hregs, hmem, hcontrol⟩

/-! ## ADDREG -/

/-- Settles O41: ADDREG is one write of `r1`, with the sum of the values both registers held before it. -/
theorem addRegAddsModulo : Obligations.AddRegAddsModulo := by
  unfold Obligations.AddRegAddsModulo
  intro s r1 r2
  have hsum : ((s.setReg r1 (addWrap (s.getReg r1) (s.getReg r2))).getReg r1).toNat =
      ((s.getReg r1).toNat + (s.getReg r2).toNat) % 65536 := by
    rw [State.getReg_setReg_self, addWrap_toNat]
  exact ⟨_, rfl, rfl, hsum, State.keepsRegsBut_setReg s r1 _, fun _ => rfl, rfl, rfl, rfl, rfl⟩

end Sys2Proof.Machine
end

section
/-! PROOFS. SIGNAL (43_signal.md): its answer for each thing the registry can hold, and what the actions of a handler do
to the machine. -/

namespace Sys2Proof.Machine

/-! ## UnknownSignal -/

theorem exec_signal_of_lookup_none {s : State} {id : Byte} (hl : Registry.lookup s.sig id = none) :
    exec (.signal id) s = .next (s.answer (.err (.unknownSignal id))) := by
  simp only [exec, execSignal, hl, State.raise]

theorem push_finish_ne_unknownSignal {v : Word} {s t : State} (ht : (push v s).finish = .next t) (id : Byte) :
    t.result ≠ .err (.unknownSignal id) := by
  rcases push_finish_cases v s with ⟨-, h⟩ | ⟨-, h⟩ <;> cases h.symm.trans ht <;> exact nofun

/-- Of all instructions only SIGNAL raises UnknownSignal, and only for an id with no handler (R166). -/
theorem exec_unknownSignal {i : Instr} {s t : State} {id : Byte} (ht : exec i s = .next t)
    (hr : t.result = .err (.unknownSignal id)) : i = .signal id ∧ Registry.lookup s.sig id = none := by
  cases i with
  | nop | addReg r1 r2 | jmp r =>
    cases ht
    cases hr
  | push imm8 | pushReg r => exact absurd hr (push_finish_ne_unknownSignal ht id)
  | popReg r =>
    rcases execPopReg_cases r s with ⟨-, h⟩ | ⟨-, -, h⟩ | ⟨-, -, h⟩ <;> cases h.symm.trans ht <;> cases hr
  | addStack =>
    rcases execAddStack_cases s with ⟨-, h⟩ | ⟨-, -, h⟩ | ⟨-, -, -, h⟩ | ⟨-, -, h⟩ <;>
      cases h.symm.trans ht <;> cases hr
  | signal id' =>
    rcases execSignal_next ht with ⟨hl, rfl⟩ | ⟨h, -, hcall⟩
    · cases hr
      exact ⟨rfl, hl⟩
    · obtain ⟨script, n, rfl, -⟩ := callHandler_next hcall
      cases hr

/-- Settles O43: fetch and decode raise errors of other kinds, and no instruction but SIGNAL raises this one. -/
theorem signalWithoutHandlerIsUnknownSignal : Obligations.SignalWithoutHandlerIsUnknownSignal := by
  unfold Obligations.SignalWithoutHandlerIsUnknownSignal
  refine ⟨fun s id hl => exec_signal_of_lookup_none hl, fun s t id ht hr => ?_⟩
  rcases step_cases s with ⟨-, hs⟩ | ⟨-, -, hs⟩ | ⟨i, hi, hs⟩
  · cases hs.symm.trans ht
    cases hr
  · cases hs.symm.trans ht
    cases hr
  · obtain ⟨rfl, hl⟩ := exec_unknownSignal (hs.symm.trans ht) hr
    exact ⟨hi, hl⟩

/-! ## A handler that returns -/

/-- Recording the answer the state held already undoes a recorded one. -/
theorem State.answer_answer_of_result {s u : State} (h : u.result = s.result) (q : StepResult) :
    (u.answer q).answer s.result = u := by
  rw [State.answer_answer, ← h]
  rfl

/-- Settles O44: the script's own last state holds the old answer, so recording that one again gives it back. -/
theorem signalRunsScriptedHandler : Obligations.SignalRunsScriptedHandler := by
  unfold Obligations.SignalRunsScriptedHandler
  intro s id script hl
  obtain ⟨hcfg, hsig, hresult, hdraws⟩ := runScript_keeps script s
  exact ⟨_, exec_signal_of_lookup hl, rfl, State.answer_answer_of_result hresult .ok, hcfg, hsig, hdraws⟩

/-- No statement reads or writes the free value's counter (assumption log 4). -/
theorem unobserved_setDraws (rs : List Reg) (n : Nat) : Unobserved rs fun s => s.setDraws n where
  cfg _ := rfl
  mem _ := rfl
  sig _ := rfl
  getReg _ _ _ := rfl
  setReg _ _ _ _ := rfl
  setMem _ _ := rfl
  answer _ _ := rfl

theorem hostAct_setDraws (a : HostAction) (s : State) (n : Nat) :
    hostAct a (s.setDraws n) = (hostAct a s).mapState fun t => t.setDraws n := by
  have hf := unobserved_setDraws [.sp] n
  have hsp : Reg.sp ∈ [Reg.sp] := List.mem_singleton_self _
  cases a with
  | setReg r v | setHalted h => rfl
  | write addr b => exact hf.memWrite_map addr b s
  | write16 addr v => exact hf.memWrite16_map addr v s
  | push v => exact hf.push_map hsp v s
  | pop =>
    rw [hostAct, hf.pop_map hsp]
    exact Ran.andThen_mapState (fun _ _ => rfl) (pop s)

/-- A script does the same whatever the counter holds, and leaves it (R143). -/
theorem runScript_setDraws (script : List HostAction) (s : State) (n : Nat) :
    runScript script (s.setDraws n) = (runScript script s).setDraws n := by
  induction script generalizing s with
  | nil => rfl
  | cons a rest ih => rw [runScript, hostAct_setDraws, Ran.state_mapState, ih, runScript]

/-- Setting the counter the state held already undoes another setting of it. -/
theorem State.setDraws_setDraws_of_draws {s u : State} (h : u.draws = s.draws) (n : Nat) :
    (u.setDraws n).setDraws s.draws = u := by
  rw [← h]
  rfl

/-- Settles O45: the drawn script runs with the counter one higher, which none of its actions reads. -/
theorem signalRunsFreeHandler : Obligations.SignalRunsFreeHandler := by
  unfold Obligations.SignalRunsFreeHandler
  intro s id n hl
  have hexec := exec_signal_of_lookup hl
  rw [callHandler, runScript_setDraws] at hexec
  obtain ⟨hcfg, hsig, hresult, hdraws⟩ :=
    runScript_keeps (Config.freeScript n s.draws s.cfg s.x s.mem s.halted) s
  refine ⟨_, hexec, rfl, ?_, hcfg, hsig, rfl⟩
  rw [State.answer_answer_of_result (by rwa [State.setDraws_result]), State.setDraws_setDraws_of_draws hdraws]

/-! ## A handler that breaks a duty -/

/-- The three breaches end the run under three names, none of which is a next state (R144). -/
theorem callHandler_breaching_ne_next (id : Byte) (b : Breach) (s t : State) :
    callHandler id (.breaching b) s ≠ .next t := by
  cases b <;> exact nofun

theorem callHandler_breaching_inj {id : Byte} {b c : Breach} {s : State}
    (h : callHandler id (.breaching b) s = callHandler id (.breaching c) s) : b = c := by
  cases b <;> cases c <;> simp [callHandler] at h ⊢

/-- Only a handler that breaks the duty ends the run as that breach does. -/
theorem callHandler_eq_breaching {id : Byte} {h : Handler} {b : Breach} {s : State}
    (he : callHandler id h s = callHandler id (.breaching b) s) : h = .breaching b := by
  cases h with
  | scripted script | free name => exact absurd he.symm (callHandler_breaching_ne_next id b s _)
  | breaching c => rw [callHandler_breaching_inj he]

theorem exec_signal_eq_breaching_iff (s : State) (id : Byte) (b : Breach) :
    Registry.lookup s.sig id = some (.breaching b) ↔ exec (.signal id) s = callHandler id (.breaching b) s := by
  refine ⟨exec_signal_of_lookup, fun he => ?_⟩
  cases hl : Registry.lookup s.sig id with
  | none => exact absurd (he.symm.trans (exec_signal_of_lookup_none hl)) (callHandler_breaching_ne_next id b s _)
  | some h => rw [callHandler_eq_breaching ((exec_signal_of_lookup hl).symm.trans he)]

/-- Settles O46: the three ends are those of a call of the three breaching handlers. -/
theorem signalStopsExactlyOnBreachingHandler : Obligations.SignalStopsExactlyOnBreachingHandler := by
  unfold Obligations.SignalStopsExactlyOnBreachingHandler
  intro s id
  exact ⟨exec_signal_eq_breaching_iff s id .reentersStep, exec_signal_eq_breaching_iff s id .neverReturns,
    exec_signal_eq_breaching_iff s id .registersHandler⟩

/-! ## The actions of a handler -/

section HandlerActions

variable {s : State}

theorem hostAct_write_in {a : Nat} (b : Byte) (hin : a < s.capacity) :
    ∃ t, hostAct (.write a b) s = .ok () t ∧ Memory.read t.mem a = b ∧ s.KeepsBytesBut a 1 t ∧ s.KeepsRegsBut [] t ∧
      s.KeepsControl t :=
  ⟨_, memWrite_in b hin, Memory.read_write_self s.mem a b, State.keepsBytesBut_write s a b, fun _ _ => rfl,
    rfl, rfl, rfl, rfl⟩

theorem hostAct_write16_in {a : Nat} (v : Word) (hin : a + 1 < s.capacity) :
    ∃ t, hostAct (.write16 a v) s = .ok () t ∧ t.wordAt a = v ∧ s.KeepsBytesBut a 2 t ∧ s.KeepsRegsBut [] t ∧
      s.KeepsControl t :=
  ⟨_, memWrite16_in v hin, State.wordAt_storeWord_self s a v, State.keepsBytesBut_storeWord s a v, fun _ _ => rfl,
    rfl, rfl, rfl, rfl⟩

theorem hostAct_push_in (v : Word) (hin : s.spAddr + 1 < s.capacity) :
    ∃ t, hostAct (.push v) s = .ok () t ∧ t.wordAt s.spAddr = v ∧ t.getReg .sp = addWrap (s.getReg .sp) 2#16 ∧
      s.KeepsBytesBut s.spAddr 2 t ∧ s.KeepsRegsBut [.sp] t ∧ s.KeepsControl t :=
  ⟨_, push_in v hin, State.wordAt_storeWord_self s s.spAddr v, State.getReg_setReg_self (s.storeWord s.spAddr v) .sp _,
    State.keepsBytesBut_storeWord s s.spAddr v, State.keepsRegsBut_setReg (s.storeWord s.spAddr v) .sp _,
    rfl, rfl, rfl, rfl⟩

theorem hostAct_pop_in (hlow : 2 ≤ s.spAddr) (hin : s.spAddr - 1 < s.capacity) :
    hostAct .pop s = .ok () (s.setReg .sp (s.getReg .sp - 2#16)) := by
  rw [hostAct, pop_in hlow hin, Ran.andThen_ok]

theorem hostAct_pop_out (hlow : 2 ≤ s.spAddr) (hout : s.capacity ≤ s.spAddr - 1) :
    hostAct .pop s = .raised (.outOfBoundsAccess (s.spAddr - 2)) (s.setReg .sp (s.getReg .sp - 2#16)) := by
  rw [hostAct, pop_out hlow hout, Ran.andThen_raised]

theorem hostAct_pop_underflow (hlow : s.spAddr < 2) : hostAct .pop s = .raised .stackUnderflow s := by
  rw [hostAct, pop_underflow hlow, Ran.andThen_raised]

end HandlerActions

/-- Settles O48: each action is the machine's own checked operation, in bounds or out of bounds. -/
theorem handlerActionsUseTheMachinesInterfaces : Obligations.HandlerActionsUseTheMachinesInterfaces := by
  unfold Obligations.HandlerActionsUseTheMachinesInterfaces
  intro s r v addr b h
  exact ⟨rfl, rfl, hostAct_write_in b, memWrite_out b, hostAct_write16_in v, memWrite16_out v, hostAct_push_in v,
    push_out v, hostAct_pop_in, hostAct_pop_out, hostAct_pop_underflow⟩

end Sys2Proof.Machine
end

section
/-! PROOFS. Control transfer (44_control.md): JMP, and the three instructions that reach PC as an ordinary register and
find it already advanced (R102). -/

namespace Sys2Proof.Machine

/-! ## JMP -/

theorem exec_jmp (r : Reg) (s : State) : exec (.jmp r) s = .next ((s.setReg .pc (s.getReg r)).answer .ok) := rfl

/-- Settles O42: JMP is one write of PC, with no check of the value. -/
theorem jmpSetsPc : Obligations.JmpSetsPc := by
  unfold Obligations.JmpSetsPc
  intro s r
  have hpc := State.getReg_setReg_self s .pc (s.getReg r)
  exact ⟨_, exec_jmp r s, rfl, hpc, State.keepsRegsBut_setReg s .pc _, fun _ => rfl, rfl, rfl, rfl, rfl⟩

/-- Settles O55: the jump moves PC alone, so the next fetch tests the target against the same capacity. -/
theorem jumpOutOfMemoryFailsAtNextFetch : Obligations.JumpOutOfMemoryFailsAtNextFetch := by
  unfold Obligations.JumpOutOfMemoryFailsAtNextFetch
  intro s r hfetch hout
  have hpc := State.getReg_setReg_self (advance s) .pc ((advance s).getReg r)
  refine ⟨_, (step_fetches hfetch).trans (exec_jmp r _), rfl, hpc, step_fetch_out ?_⟩
  rw [State.answer_pcAddr, State.pcAddr_setReg_pc]
  exact hout

/-! ## PC as a register operand -/

/-- The advanced PC as an address (R27, R102). -/
theorem advance_pcAddr_eq_mod (s : State) : (advance s).pcAddr = (s.pcAddr + 2) % 65536 := by
  rw [advance_pcAddr, addressOf, addWrap_toNat]
  rfl

/-- What ADDREG PC, r2 leaves in PC, on the state it is given (R131, R152). -/
theorem pcAddr_addReg_pc (s : State) (r2 : Reg) :
    (s.setReg .pc (addWrap (s.getReg .pc) (s.getReg r2))).pcAddr = (s.pcAddr + (s.getReg r2).toNat) % 65536 := by
  rw [State.pcAddr_setReg_pc, addressOf, addWrap_toNat]
  rfl

/-- Settles O52: the sum is formed from the advanced PC, which is also the second operand when `r2` is PC. -/
theorem addRegPcIsRelativeJump : Obligations.AddRegPcIsRelativeJump := by
  unfold Obligations.AddRegPcIsRelativeJump
  intro s r2 hfetch
  obtain ⟨hregs, hmem, hcontrol⟩ := (advance_differsInRegs s).setReg (List.mem_singleton_self _)
    (addWrap ((advance s).getReg .pc) ((advance s).getReg r2))
  refine ⟨_, step_fetches hfetch, rfl, ?_, hregs, fun a => congrArg (Memory.read · a) hmem, hcontrol⟩
  rw [State.answer_pcAddr, pcAddr_addReg_pc, advance_pcAddr_eq_mod]
  split
  next hr =>
    have hoperand : ((advance s).getReg r2).toNat = (s.pcAddr + 2) % 65536 := hr ▸ advance_pcAddr_eq_mod s
    omega
  next hr =>
    rw [advance_getReg_of_ne s hr]
    omega

/-- Settles O53: PUSHREG reads PC after the advance, and its `Push` moves SP alone, so PC still holds what it stored. -/
theorem pushPcCapturesFollowingAddress : Obligations.PushPcCapturesFollowingAddress := by
  unfold Obligations.PushPcCapturesFollowingAddress
  intro s hfetch hin
  have heffect := push_finish_effect ((advance s).getReg .pc) (advance s)
  rw [advance_spAddr, advance_capacity, if_pos hin] at heffect
  obtain ⟨t, ht, hok, hword, hsp, hregs, -⟩ := heffect
  refine ⟨t, (step_fetches hfetch).trans ht, hok, ?_, ?_, ?_⟩
  · rw [hword, advance_pc]
  · rw [hregs .pc (by decide), advance_pc]
  · rw [hsp, advance_getReg_of_ne s (by decide)]

/-- Settles O54: POPREG writes PC last, over the advance, and a failed `Pop` ends it before that write. -/
theorem popPcJumpsToPoppedWord : Obligations.PopPcJumpsToPoppedWord := by
  unfold Obligations.PopPcJumpsToPoppedWord
  intro s hfetch
  have hstep : step s = execPopReg .pc (advance s) := step_fetches hfetch
  rw [hstep, ← advance_spAddr s, ← advance_capacity s]
  refine ⟨fun hlow hin => ?_, fun hfails => ?_⟩
  · refine ⟨_, execPopReg_in .pc hlow hin, rfl, State.getReg_setReg_self _ .pc _, ?_⟩
    rw [State.answer_spAddr, State.spAddr_setReg_of_ne _ _ (by decide), State.spAddr_lowerSp hlow]
  · by_cases hlow : (advance s).spAddr < 2
    · exact ⟨_, _, execPopReg_underflow .pc hlow, rfl, advance_pc s⟩
    · refine ⟨_, _, execPopReg_out .pc (not_lt.1 hlow) (hfails.resolve_left hlow), rfl, ?_⟩
      rw [State.answer_getReg, State.getReg_setReg_of_ne _ _ (by decide), advance_pc]

end Sys2Proof.Machine
end

section
/-! PROOFS. The exceptions (60_exceptions.md): the recorded answer is an output no step reads, and the errors a step can
raise, with what raises each and the state it leaves, said once. -/

namespace Sys2Proof.Machine

/-! ## The recorded answer is not read -/

theorem push_answer (v : Word) (s : State) (q : StepResult) :
    push v (s.answer q) = (push v s).mapState fun t => t.answer q := by
  rcases push_cases v s with ⟨hin, hp⟩ | ⟨hout, hp⟩ <;> rw [hp]
  · exact push_in (s := s.answer q) v hin
  · exact push_out (s := s.answer q) v hout

theorem pop_answer (s : State) (q : StepResult) : pop (s.answer q) = (pop s).mapState fun t => t.answer q := by
  rcases pop_cases s with ⟨hlow, hp⟩ | ⟨hlow, hout, hp⟩ | ⟨hlow, hin, hp⟩ <;> rw [hp]
  · exact pop_underflow (s := s.answer q) hlow
  · exact pop_out (s := s.answer q) hlow hout
  · exact pop_in (s := s.answer q) hlow hin

theorem memWrite_answer (a : Nat) (b : Byte) (s : State) (q : StepResult) :
    memWrite a b (s.answer q) = (memWrite a b s).mapState fun t => t.answer q := by
  rcases Nat.lt_or_ge a s.capacity with hin | hout
  · rw [memWrite_in b hin]
    exact memWrite_in (s := s.answer q) b hin
  · rw [memWrite_out b hout]
    exact memWrite_out (s := s.answer q) b hout

theorem memWrite16_answer (a : Nat) (v : Word) (s : State) (q : StepResult) :
    memWrite16 a v (s.answer q) = (memWrite16 a v s).mapState fun t => t.answer q := by
  rcases Nat.lt_or_ge (a + 1) s.capacity with hin | hout
  · rw [memWrite16_in v hin]
    exact memWrite16_in (s := s.answer q) v hin
  · rw [memWrite16_out v hout]
    exact memWrite16_out (s := s.answer q) v hout

theorem hostAct_answer (a : HostAction) (s : State) (q : StepResult) :
    hostAct a (s.answer q) = (hostAct a s).mapState fun t => t.answer q := by
  cases a with
  | setReg r v | setHalted h => rfl
  | write addr b => exact memWrite_answer addr b s q
  | write16 addr v => exact memWrite16_answer addr v s q
  | push v => exact push_answer v s q
  | pop =>
    rw [hostAct, pop_answer]
    exact Ran.andThen_mapState (fun _ _ => rfl) (pop s)

/-- A script does the same whatever the last step answered, and leaves that answer (R143). -/
theorem runScript_answer (script : List HostAction) (s : State) (q : StepResult) :
    runScript script (s.answer q) = (runScript script s).answer q := by
  induction script generalizing s with
  | nil => rfl
  | cons a rest ih => rw [runScript, hostAct_answer, Ran.state_mapState, ih, runScript]

/-- The answer a returning handler's call records replaces the one its script left. -/
theorem runScript_answer_returnOk (script : List HostAction) (s : State) (q : StepResult) :
    (runScript script (s.answer q)).returnOk = (runScript script s).returnOk := by
  rw [runScript_answer]
  rfl

theorem callHandler_answer (id : Byte) (h : Handler) (s : State) (q : StepResult) :
    callHandler id h (s.answer q) = callHandler id h s := by
  cases h with
  | scripted script => exact runScript_answer_returnOk script s q
  | free name => exact runScript_answer_returnOk _ (s.setDraws (s.draws + 1)) q
  | breaching b => cases b <;> rfl

/-- The end of an instruction records its own answer over the one its statements found. -/
theorem Ran.finish_mapState_answer (p : Ran Unit) (q : StepResult) :
    (p.mapState fun t => t.answer q).finish = p.finish := by
  cases p <;> rfl

theorem Ran.finish_andThen_mapState_answer {α : Type} {k : α → State → Ran Unit} {q : StepResult}
    (hk : ∀ v s, (k v (s.answer q)).finish = (k v s).finish) (p : Ran α) :
    ((p.mapState fun t => t.answer q).andThen k).finish = (p.andThen k).finish := by
  cases p with
  | ok v s => exact hk v s
  | raised e s => rfl

theorem push_finish_answer (v : Word) (s : State) (q : StepResult) :
    (push v (s.answer q)).finish = (push v s).finish := by
  rw [push_answer, Ran.finish_mapState_answer]

/-- No instruction reads the recorded answer, with a handler's call or without (R161). -/
theorem exec_answer (i : Instr) (s : State) (q : StepResult) : exec i (s.answer q) = exec i s := by
  cases i with
  | nop | addReg r1 r2 | jmp r => rfl
  | push imm8 => exact push_finish_answer _ s q
  | pushReg r => exact push_finish_answer _ s q
  | popReg r =>
    rw [exec, execPopReg, pop_answer]
    exact Ran.finish_andThen_mapState_answer (fun _ _ => rfl) (pop s)
  | addStack =>
    rw [exec, execAddStack, pop_answer]
    refine Ran.finish_andThen_mapState_answer (fun a t => ?_) (pop s)
    rw [pop_answer]
    exact Ran.finish_andThen_mapState_answer (fun b u => push_finish_answer _ u q) (pop t)
  | signal id =>
    cases hl : Registry.lookup s.sig id with
    | none => exact (exec_signal_of_lookup_none (s := s.answer q) hl).trans (exec_signal_of_lookup_none hl).symm
    | some h =>
      rw [exec_signal_of_lookup hl, exec_signal_of_lookup (s := s.answer q) hl]
      exact callHandler_answer id h s q

/-- Settles O26: fetch, advance and decode read other fields, and the instruction is the same by `exec_answer`. -/
theorem answerOfLastStepIsNeverRead : Obligations.AnswerOfLastStepIsNeverRead := by
  unfold Obligations.AnswerOfLastStepIsNeverRead
  intro s q
  rcases step_cases s with ⟨hout, hs⟩ | ⟨hin, hd, hs⟩ | ⟨i, hi, hs⟩ <;> rw [hs]
  · exact step_fetch_out (s := s.answer q) hout
  · exact step_invalid (s := s.answer q) hin hd
  · exact (step_fetches (s := s.answer q) hi).trans (exec_answer i (advance s) q)

/-! ## The errors a step can raise -/

/-- The fetched instruction is PUSH or PUSHREG, whose one access is a push at SP. -/
def State.FetchesPush (s : State) : Prop := (∃ b, s.Fetches (.push b)) ∨ ∃ r, s.Fetches (.pushReg r)

/-- The fetched instruction is POPREG or ADDSTACK, which begin with a pop. -/
def State.FetchesPop (s : State) : Prop := (∃ r, s.Fetches (.popReg r)) ∨ s.Fetches .addStack

/-- `s.Raises e u`: a step of `s` has cause to raise `e`, in the state `u` (R162 to R167). -/
inductive State.Raises (s : State) : StepError → State → Prop where
  | fetch (hout : s.capacity ≤ s.pcAddr + 1) : s.Raises (.outOfBoundsAccess s.pcAddr) s
  | decode (hin : s.pcAddr + 1 < s.capacity) (hd : ∀ i, decode s.cfg.encoding (s.wordAt s.pcAddr) ≠ .ok i) :
    s.Raises (.invalidOpcode (s.wordAt s.pcAddr)) (advance s)
  | push (hpush : s.FetchesPush) (hout : s.capacity ≤ s.spAddr + 1) :
    s.Raises (.outOfBoundsAccess s.spAddr) (advance s)
  | popUnderflow (hpop : s.FetchesPop) (hlow : s.spAddr < 2) : s.Raises .stackUnderflow (advance s)
  | popOut (hpop : s.FetchesPop) (htwo : 2 ≤ s.spAddr) (hout : s.capacity ≤ s.spAddr - 1) :
    s.Raises (.outOfBoundsAccess (s.spAddr - 2)) ((advance s).setReg .sp ((advance s).getReg .sp - 2#16))
  | secondPopUnderflow (hadd : s.Fetches .addStack) (htwo : 2 ≤ s.spAddr) (hfour : s.spAddr < 4)
    (hin : s.spAddr - 1 < s.capacity) :
    s.Raises .stackUnderflow ((advance s).setReg .sp ((advance s).getReg .sp - 2#16))
  | signal {id : Byte} (hsig : s.Fetches (.signal id)) (hl : Registry.lookup s.sig id = none) :
    s.Raises (.unknownSignal id) (advance s)

section ExecutionErrors

variable {s t : State} {e : StepError}

theorem push_finish_raises {v : Word} (hpush : s.FetchesPush) (ht : (push v (advance s)).finish = .next t)
    (he : t.result = .err e) : ∃ u, s.Raises e u ∧ t = u.answer (.err e) := by
  rcases push_finish_cases v (advance s) with ⟨-, hp⟩ | ⟨hout, hp⟩ <;> cases hp.symm.trans ht <;> cases he
  rw [advance_spAddr] at hout ⊢
  exact ⟨_, .push hpush hout, rfl⟩

theorem execPopReg_raises {r : Reg} (hi : s.Fetches (.popReg r)) (ht : execPopReg r (advance s) = .next t)
    (he : t.result = .err e) : ∃ u, s.Raises e u ∧ t = u.answer (.err e) := by
  have hpop : s.FetchesPop := .inl ⟨r, hi⟩
  have hcases := execPopReg_cases r (advance s)
  rw [advance_spAddr, advance_capacity] at hcases
  rcases hcases with ⟨hlow, hp⟩ | ⟨htwo, hout, hp⟩ | ⟨-, -, hp⟩ <;> cases hp.symm.trans ht <;> cases he
  · exact ⟨_, .popUnderflow hpop hlow, rfl⟩
  · exact ⟨_, .popOut hpop htwo hout, rfl⟩

theorem execAddStack_raises (hi : s.Fetches .addStack) (ht : execAddStack (advance s) = .next t)
    (he : t.result = .err e) : ∃ u, s.Raises e u ∧ t = u.answer (.err e) := by
  have hpop : s.FetchesPop := .inr hi
  have hcases := execAddStack_cases (advance s)
  rw [advance_spAddr, advance_capacity] at hcases
  rcases hcases with ⟨hlow, hp⟩ | ⟨htwo, hout, hp⟩ | ⟨htwo, hfour, hin, hp⟩ | ⟨-, -, hp⟩ <;>
    cases hp.symm.trans ht <;> cases he
  · exact ⟨_, .popUnderflow hpop hlow, rfl⟩
  · exact ⟨_, .popOut hpop htwo hout, rfl⟩
  · exact ⟨_, .secondPopUnderflow hi htwo hfour hin, rfl⟩

theorem execSignal_raises {id : Byte} (hi : s.Fetches (.signal id)) (ht : execSignal id (advance s) = .next t)
    (he : t.result = .err e) : ∃ u, s.Raises e u ∧ t = u.answer (.err e) := by
  rcases execSignal_next ht with ⟨hl, rfl⟩ | ⟨h, -, hcall⟩
  · cases he
    exact ⟨_, .signal hi hl, rfl⟩
  · obtain ⟨script, n, rfl, -⟩ := callHandler_next hcall
    cases he

/-- Everything a step that answers an error can be: it had cause to raise that error, and only recorded it in the state
at the failing place (R165). -/
theorem step_raises (ht : step s = .next t) (he : t.result = .err e) :
    ∃ u, s.Raises e u ∧ t = u.answer (.err e) := by
  rcases step_cases s with ⟨hout, hs⟩ | ⟨hin, hd, hs⟩ | ⟨i, hi, hs⟩ <;> rw [hs] at ht
  · cases ht
    cases he
    exact ⟨_, .fetch hout, rfl⟩
  · cases ht
    cases he
    exact ⟨_, .decode hin hd, rfl⟩
  · cases i with
    | nop | addReg r1 r2 | jmp r =>
      cases ht
      cases he
    | push b => exact push_finish_raises (.inl ⟨b, hi⟩) ht he
    | pushReg r => exact push_finish_raises (.inr ⟨r, hi⟩) ht he
    | popReg r => exact execPopReg_raises hi ht he
    | addStack => exact execAddStack_raises hi ht he
    | signal id => exact execSignal_raises hi ht he

end ExecutionErrors

/-! ## The cause of each error kind -/

/-- The two ways to underflow: `Pop` found SP below 2, or ADDSTACK's second `Pop` found it there after the first one
(R164). -/
theorem State.Raises.stackUnderflow {s u : State} (h : s.Raises .stackUnderflow u) :
    u.spAddr < 2 ∧ ((∃ r, s.Fetches (.popReg r) ∧ s.spAddr < 2) ∨ (s.Fetches .addStack ∧ s.spAddr < 4)) := by
  cases h with
  | popUnderflow hpop hlow =>
    rw [advance_spAddr]
    rcases hpop with ⟨r, hr⟩ | hadd
    · exact ⟨hlow, .inl ⟨r, hr, hlow⟩⟩
    · exact ⟨hlow, .inr ⟨hadd, by omega⟩⟩
  | secondPopUnderflow hadd htwo hfour _ =>
    rw [State.spAddr_lowerSp (s := advance s) htwo, advance_spAddr]
    exact ⟨by omega, .inr ⟨hadd, hfour⟩⟩

/-- Settles O33, by the ways a step can raise each of the four kinds. -/
theorem errorKindsHaveTheirCauses : Obligations.ErrorKindsHaveTheirCauses := by
  unfold Obligations.ErrorKindsHaveTheirCauses
  intro s t ht
  refine ⟨fun a he => ?_, fun w he => ?_, fun he => ?_, fun id he => ?_⟩ <;>
    obtain ⟨u, hraises, rfl⟩ := step_raises ht he
  · cases hraises with
    | fetch hout => exact ⟨hout, .inl ⟨rfl, rfl⟩⟩
    | push hpush hout => exact ⟨hout, .inr (.inl ⟨rfl, hpush⟩)⟩
    | popOut hpop htwo hout => exact ⟨by omega, .inr (.inr ⟨rfl, htwo, hpop⟩)⟩
  · cases hraises with
    | decode hin hd => exact ⟨hin, rfl, hd⟩
  · exact hraises.stackUnderflow
  · cases hraises with
    | signal hsig hl => exact ⟨hsig, hl⟩

/-! ## The state an error leaves -/

theorem State.Fetches.not_fetchesPop {s : State} {i : Instr} (h : s.Fetches i) (hpop : ∀ r, i ≠ .popReg r)
    (hadd : i ≠ .addStack) : ¬ s.FetchesPop := by
  have heq {j : Instr} (h' : s.Fetches j) : i = j := Except.ok.inj (h.2.symm.trans h'.2)
  rintro (⟨r, hr⟩ | ha)
  · exact hpop r (heq hr)
  · exact hadd (heq ha)

theorem State.FetchesPush.not_fetchesPop {s : State} (h : s.FetchesPush) : ¬ s.FetchesPop := by
  rcases h with ⟨b, hb⟩ | ⟨r, hr⟩
  · exact hb.not_fetchesPop nofun nofun
  · exact hr.not_fetchesPop nofun nofun

theorem State.FetchesPush.exists_fetches {s : State} (h : s.FetchesPush) : ∃ i, s.Fetches i := by
  rcases h with ⟨b, hb⟩ | ⟨r, hr⟩
  · exact ⟨_, hb⟩
  · exact ⟨_, hr⟩

theorem State.FetchesPop.exists_fetches {s : State} (h : s.FetchesPop) : ∃ i, s.Fetches i := by
  rcases h with ⟨r, hr⟩ | ha
  · exact ⟨_, hr⟩
  · exact ⟨_, ha⟩

/-- How far a step has come when it raises an error: nothing was done yet, PC was advanced, or a first `Pop` has
lowered SP too (R167). -/
theorem State.Raises.state_cases {s u : State} {e : StepError} (h : s.Raises e u) :
    (s.capacity ≤ s.pcAddr + 1 ∧ ¬ s.FetchesPop ∧ u = s) ∨
    (s.pcAddr + 1 < s.capacity ∧ ¬ (2 ≤ s.spAddr ∧ s.FetchesPop) ∧ u = advance s) ∨
    (s.pcAddr + 1 < s.capacity ∧ (2 ≤ s.spAddr ∧ s.FetchesPop) ∧
      u = (advance s).setReg .sp ((advance s).getReg .sp - 2#16)) := by
  cases h with
  | fetch hout =>
    refine .inl ⟨hout, fun hpop => ?_, rfl⟩
    obtain ⟨i, hin, -⟩ := hpop.exists_fetches
    omega
  | decode hin hd =>
    refine .inr (.inl ⟨hin, fun ⟨_, hpop⟩ => ?_, rfl⟩)
    obtain ⟨i, -, hi⟩ := hpop.exists_fetches
    exact hd i hi
  | push hpush hout =>
    obtain ⟨i, hin, -⟩ := hpush.exists_fetches
    exact .inr (.inl ⟨hin, fun ⟨_, hpop⟩ => hpush.not_fetchesPop hpop, rfl⟩)
  | popUnderflow hpop hlow =>
    obtain ⟨i, hin, -⟩ := hpop.exists_fetches
    exact .inr (.inl ⟨hin, fun ⟨htwo, _⟩ => not_le.2 hlow htwo, rfl⟩)
  | popOut hpop htwo hout =>
    obtain ⟨i, hin, -⟩ := hpop.exists_fetches
    exact .inr (.inr ⟨hin, ⟨htwo, hpop⟩, rfl⟩)
  | secondPopUnderflow hadd htwo _ _ =>
    obtain ⟨hin, hd⟩ := hadd
    exact .inr (.inr ⟨hin, ⟨htwo, .inr ⟨hin, hd⟩⟩, rfl⟩)
  | signal hsig hl =>
    have hnone := hsig.not_fetchesPop nofun nofun
    obtain ⟨hin, -⟩ := hsig
    exact .inr (.inl ⟨hin, fun ⟨_, hpop⟩ => hnone hpop, rfl⟩)

/-- Settles O32: the three states an error can be raised in, none of which differs from `s` outside PC and SP. -/
theorem errorLeavesStateOfFailingPlace : Obligations.ErrorLeavesStateOfFailingPlace := by
  unfold Obligations.ErrorLeavesStateOfFailingPlace
  intro s t e ht he
  obtain ⟨u, hraises, rfl⟩ := step_raises ht he
  have hadvance : s.DiffersInRegs [.pc, .sp] (advance s) := (State.DiffersInRegs.refl _ s).setReg (by simp) _
  have hsp : (advance s).getReg .sp = s.getReg .sp := advance_getReg_of_ne s (by decide)
  rcases hraises.state_cases with ⟨hout, hpop, rfl⟩ | ⟨hin, hpop, rfl⟩ | ⟨hin, hpop, rfl⟩
  · refine ⟨rfl, ⟨rfl, rfl, rfl, rfl⟩, fun _ _ => rfl, ?_, fun h => absurd h.2 hpop, fun _ => rfl⟩
    rw [if_neg (not_lt.2 hout), State.answer_getReg]
  · obtain ⟨hregs, hmem, hcontrol⟩ := hadvance
    refine ⟨hmem, hcontrol, hregs, ?_, fun h => absurd h hpop, fun _ => hsp⟩
    rw [if_pos hin, State.answer_getReg, advance_pc]
  · obtain ⟨hregs, hmem, hcontrol⟩ := hadvance.setReg (r := .sp) (by simp) ((advance s).getReg .sp - 2#16)
    refine ⟨hmem, hcontrol, hregs, ?_, fun _ => ?_, fun h => absurd hpop h⟩
    · rw [if_pos hin, State.answer_getReg, State.getReg_setReg_of_ne _ _ (by decide), advance_pc]
    · rw [State.answer_getReg, State.getReg_setReg_self, hsp]

end Sys2Proof.Machine
end

section
/-! PROOFS. Straight-line code above its own stack (70_reset_and_hazards.md, R200): what an instruction can do to the
stack, and why the stack stays behind PC. -/

namespace Sys2Proof

/-- An instruction writes SP as the stack pointer, and any other register only as its destination (R23). -/
theorem Instr.dest_of_mem_written {i : Instr} {r : Reg} (hr : r ∈ i.written) (hne : r ≠ .sp) : i.dest = some r := by
  cases i with
  | nop | signal id => cases hr
  | push imm8 | pushReg r' | addStack => exact absurd (List.mem_singleton.1 hr) hne
  | popReg r' =>
    rcases List.mem_cons.1 hr with heq | hr'
    · exact absurd heq hne
    · exact congrArg some (List.mem_singleton.1 hr').symm
  | addReg r1 r2 | jmp r' => exact congrArg some (List.mem_singleton.1 hr).symm

end Sys2Proof

namespace Sys2Proof.Machine

/-- The stack of `t` is that of `s` with a word stored at or below the old SP and the new SP right behind that word, or
with nothing stored and SP not raised. -/
inductive State.MovesStack (s t : State) : Prop where
  | stored {a : Nat} {v : Word} (ha : a ≤ s.spAddr) (hmem : t.mem = (s.storeWord a v).mem) (hsp : t.spAddr = a + 2)
  | notRaised (hmem : t.mem = s.mem) (hsp : t.spAddr ≤ s.spAddr)

section StackMoves

variable {s t : State}

/-- A stack that ends at least one word below `p` still ends at or below `p` once it has moved, and from `p` on no byte
has changed. -/
theorem State.MovesStack.stays_behind (h : s.MovesStack t) {p : Nat} (hp : s.spAddr + 2 ≤ p) :
    t.spAddr ≤ p ∧ ∀ a, p ≤ a → Memory.read t.mem a = Memory.read s.mem a := by
  cases h with
  | @stored a v ha hmem hsp =>
    refine ⟨by omega, fun b hb => ?_⟩
    rw [hmem, State.keepsBytesBut_storeWord s a v b (.inr (by omega))]
  | notRaised hmem hsp => exact ⟨by omega, fun _ _ => by rw [hmem]⟩

/-- A `Push` stores at SP, and moves SP behind the stored word unless SP wraps (R105). -/
theorem push_finish_movesStack {v : Word} (hwrap : s.spAddr + 2 < 65536) (ht : (push v s).finish = .next t) :
    s.MovesStack t := by
  rcases push_finish_cases v s with ⟨-, hp⟩ | ⟨-, hp⟩ <;> cases hp.symm.trans ht
  · refine .stored le_rfl rfl ?_
    rw [State.answer_spAddr, State.spAddr_setReg_sp]
    exact addressOf_addWrap_two hwrap
  · exact .notRaised rfl le_rfl

/-- The decrement of `Pop` lowers SP and stores nothing (R106). -/
theorem State.spAddr_lowerSp_le (hlow : 2 ≤ s.spAddr) : (s.setReg .sp (s.getReg .sp - 2#16)).spAddr ≤ s.spAddr := by
  rw [State.spAddr_lowerSp hlow]
  exact Nat.sub_le _ _

theorem execPopReg_movesStack {r : Reg} (hr : r ≠ .sp) (ht : execPopReg r s = .next t) : s.MovesStack t := by
  rcases execPopReg_cases r s with ⟨-, hp⟩ | ⟨hlow, -, hp⟩ | ⟨hlow, -, hp⟩ <;> cases hp.symm.trans ht
  · exact .notRaised rfl le_rfl
  · exact .notRaised rfl (State.spAddr_lowerSp_le hlow)
  · refine .notRaised rfl ?_
    rw [State.answer_spAddr, State.spAddr_setReg_of_ne _ _ hr]
    exact State.spAddr_lowerSp_le hlow

/-- ADDSTACK stores the sum two words below SP, and SP ends behind the sum (R130). -/
theorem execAddStack_movesStack (ht : execAddStack s = .next t) : s.MovesStack t := by
  rcases execAddStack_cases s with ⟨-, hp⟩ | ⟨hlow, -, hp⟩ | ⟨hlow, -, -, hp⟩ | ⟨hfour, -, hp⟩ <;>
    cases hp.symm.trans ht
  · exact .notRaised rfl le_rfl
  · exact .notRaised rfl (State.spAddr_lowerSp_le hlow)
  · exact .notRaised rfl (State.spAddr_lowerSp_le hlow)
  · refine .stored (Nat.sub_le _ 4) rfl ?_
    rw [State.answer_spAddr, State.spAddr_setReg_sp, State.addressOf_sp_sub_two (by omega)]
    omega

/-- Only an instruction that writes SP stores, so any other leaves the stack where it is. -/
theorem exec_movesStack_of_sp_not_written {i : Instr} (hsp : .sp ∉ i.written) (hc : ¬ i.CallsHandler s)
    (ht : exec i s = .next t) : s.MovesStack t := by
  rcases exec_next_cases hc ht with ⟨-, -, -, -, -, hwritten, -⟩ | ⟨hregs, hmem, -⟩
  · exact absurd hwritten hsp
  · exact .notRaised hmem (congrArg addressOf (hregs .sp hsp)).le

theorem exec_movesStack {i : Instr} (hwrap : s.spAddr + 2 < 65536) (hdest : i.dest ≠ some .sp)
    (hc : ¬ i.CallsHandler s) (ht : exec i s = .next t) : s.MovesStack t := by
  cases i with
  | push imm8 | pushReg r => exact push_finish_movesStack hwrap ht
  | popReg r => exact execPopReg_movesStack (fun hr => hdest (congrArg some hr)) ht
  | addStack => exact execAddStack_movesStack ht
  | addReg r1 r2 =>
    have hsp : .sp ∉ (Instr.addReg r1 r2).written := fun hr => hdest (congrArg some (List.mem_singleton.1 hr).symm)
    exact exec_movesStack_of_sp_not_written hsp hc ht
  | nop | signal id | jmp r => exact exec_movesStack_of_sp_not_written (by simp [Instr.written]) hc ht

/-- Only an instruction with PC as its destination moves PC off the following instruction (R102). -/
theorem exec_keeps_pcAddr {i : Instr} (hdest : i.dest ≠ some .pc) (hc : ¬ i.CallsHandler s)
    (ht : exec i s = .next t) : t.pcAddr = s.pcAddr := by
  obtain ⟨hregs, -⟩ := instructionsWriteOnlyTheirRegisters i s t hc ht
  exact congrArg addressOf (hregs .pc fun hr => hdest (Instr.dest_of_mem_written hr (by decide)))

end StackMoves

/-- Settles O30: the instruction runs with PC advanced, so the stack ends at least a word below that PC, and the
instruction adds at most one word to it. -/
theorem straightLineStackStaysBehindPc : Obligations.StraightLineStackStaysBehindPc := by
  unfold Obligations.StraightLineStackStaysBehindPc
  intro s t i hbehind hwrap hfetch hpc hsp hc ht
  rw [step_fetches hfetch] at ht
  have hadvance : (advance s).pcAddr = s.pcAddr + 2 := (advance_pcAddr s).trans (addressOf_addWrap_two hwrap)
  have hkept : t.pcAddr = s.pcAddr + 2 := (exec_keeps_pcAddr (s := advance s) hpc hc ht).trans hadvance
  have hstack : (advance s).spAddr + 2 ≤ t.pcAddr := by
    rw [advance_spAddr, hkept]
    omega
  have hmoves := exec_movesStack (s := advance s) (by omega) hsp hc ht
  exact ⟨hkept, hmoves.stays_behind hstack⟩

end Sys2Proof.Machine
end
